-- ==== Sys2Proof/Word.lean ====
section
/-!
DEFINITION. The bit-vector types of the block: state and raw words (R20), bytes (R24), the 64-bit seed and
result fields (R52, R57) and the 72-bit command word (R50).
-/

namespace Sys2Proof

/-- A state word, a raw word or a 32-bit operand field (R20, R50). -/
abbrev Word := BitVec 32

/-- One byte of the `NEXT_BYTES` stream (R58). -/
abbrev Byte := BitVec 8

/-- A 64-bit value: a seed, the `entropy` input or the `data` field of a response (R30, R52, R57). -/
abbrev DWord := BitVec 64

/-- The command word `cmd[71:0]` (R50). -/
abbrev CmdWord := BitVec 72

end Sys2Proof
end

