-- ==== Sys2Proof/Syntax.lean ====
section
/-!
DEFINITION. The thirteen commands of R55, one constructor per row of spec/opcode_table.json, with their operands read
as R52 reads them: a seed is 64 bits, `upper` and `lower` are mathematical integers (REDZEN's Int32, widened before
they are compared or subtracted), a length is a natural number. A field a format does not use (R54) is no operand.
-/

namespace Sys2Proof

/-- A command of `XSR-CMD` 1.0. -/
inductive Instr where
  /-- `SEED`, opcode 0x01, format S (R83). -/
  | seed (value : DWord)
  /-- `SEED_DEFAULT`, opcode 0x02, format Z (R84). -/
  | seedDefault
  /-- `NEXT`, opcode 0x10, format Z (R100). -/
  | next
  /-- `NEXT_U`, opcode 0x11, format A (R101). -/
  | nextU (upper : Int)
  /-- `NEXT_LU`, opcode 0x12, format AB (R102). -/
  | nextLU (lower upper : Int)
  /-- `NEXT_UINT`, opcode 0x13, format Z (R103). -/
  | nextUint
  /-- `NEXT_INT`, opcode 0x14, format Z (R104). -/
  | nextInt
  /-- `NEXT_DOUBLE`, opcode 0x15, format Z (R122). -/
  | nextDouble
  /-- `NEXT_DOUBLE_NZ`, opcode 0x16, format Z (R123). -/
  | nextDoubleNZ
  /-- `NEXT_FLOAT`, opcode 0x17, format Z (R125). -/
  | nextFloat
  /-- `NEXT_BOOL`, opcode 0x18, format Z (R105). -/
  | nextBool
  /-- `NEXT_BYTE`, opcode 0x19, format Z (R106). -/
  | nextByte
  /-- `NEXT_BYTES`, opcode 0x1A, format A (R107). -/
  | nextBytes (len : Nat)
  deriving DecidableEq, Repr

end Sys2Proof
end

