-- ==== Sys2Proof/WellFormed.lean ====
section
/-!
DEFINITION. Which instructions a command word can carry: every operand lies in the type R52 gives it, which is also
what the assembler of R60 checks. `NEXT_U 0` and `NEXT_LU 5, 5` are well-formed (R60): the block answers them with an
error. A seed needs no check, it has its 64 bits by type.
-/

namespace Sys2Proof

/-- `<i32>` of R60: the integer lies in `[-2^31, 2^31 - 1]`. -/
def isInt32 (v : Int) : Bool := decide (-2147483648 ≤ v) && decide (v ≤ 2147483647)

/-- `<u32>` of R60: the number lies in `[0, 2^32 - 1]`. -/
def isUInt32 (n : Nat) : Bool := decide (n ≤ 4294967295)

/-- Every operand lies inside its type (R52, R60). -/
def Instr.wellFormed : Instr → Bool
  | .seed _ => true
  | .seedDefault => true
  | .next => true
  | .nextU upper => isInt32 upper
  | .nextLU lower upper => isInt32 lower && isInt32 upper
  | .nextUint => true
  | .nextInt => true
  | .nextDouble => true
  | .nextDoubleNZ => true
  | .nextFloat => true
  | .nextBool => true
  | .nextByte => true
  | .nextBytes len => isUInt32 len

end Sys2Proof
end

