-- ==== Sys2Proof/Decode.lean ====
section
/-!
DEFINITION. The command word (R50), its fields, the opcode map (R55, R56) and operand assembly (R52): a decoder that is
total on all `2^72` words (R53) and an encoder that writes 0 in every unused field (R54).
-/

namespace Sys2Proof

/-- Bits 71:64, the opcode (R50). -/
def opField (c : CmdWord) : Byte := c.extractLsb' 64 8

/-- Bits 63:32, the first operand (R50). -/
def aField (c : CmdWord) : Word := c.extractLsb' 32 32

/-- Bits 31:0, the second operand (R50). -/
def bField (c : CmdWord) : Word := c.extractLsb' 0 32

/-- A command word from its three fields (R50). -/
def commandWord (op : Byte) (a b : Word) : CmdWord := op ++ a ++ b

/-- `signed_32(v)`: a 32-bit value read as two's complement (R8). -/
def signed32 (v : Word) : Int :=
  if v.toNat < 2147483648 then (v.toNat : Int) else (v.toNat : Int) - 4294967296

/-- The 32-bit two's complement pattern of an integer (R60: "as two's complement"). -/
def pattern32 (v : Int) : Word := BitVec.ofInt 32 v

/-- `seed = {a, b}`, `a` the high half (R52). -/
def seedOperand (a b : Word) : DWord := a ++ b

/-- Why a command word is no command. -/
inductive DecodeError where
  /-- The opcode is one of the 243 reserved values of R56. -/
  | reservedOpcode (op : Byte)
  deriving DecidableEq, Repr

/-- The decoder: the opcode alone identifies the command (R53), the fields its format uses are its operands (R51,
R52), the others are ignored (R54). -/
def decode (c : CmdWord) : Except DecodeError Instr :=
  match (opField c).toNat with
  | 0x01 => .ok (.seed (seedOperand (aField c) (bField c)))
  | 0x02 => .ok .seedDefault
  | 0x10 => .ok .next
  | 0x11 => .ok (.nextU (signed32 (aField c)))
  | 0x12 => .ok (.nextLU (signed32 (aField c)) (signed32 (bField c)))
  | 0x13 => .ok .nextUint
  | 0x14 => .ok .nextInt
  | 0x15 => .ok .nextDouble
  | 0x16 => .ok .nextDoubleNZ
  | 0x17 => .ok .nextFloat
  | 0x18 => .ok .nextBool
  | 0x19 => .ok .nextByte
  | 0x1A => .ok (.nextBytes (aField c).toNat)
  | _ => .error (.reservedOpcode (opField c))

/-- The four formats of R51. -/
inductive Format where
  /-- Neither `a` nor `b`. -/
  | Z
  /-- `a` only. -/
  | A
  /-- `a` and `b` as two separate operands. -/
  | AB
  /-- `{a, b}` as one 64-bit operand. -/
  | S
  deriving DecidableEq, Repr

/-- The format uses field `a` (R51). -/
def Format.usesA : Format → Bool
  | .Z => false
  | .A => true
  | .AB => true
  | .S => true

/-- The format uses field `b` (R51). -/
def Format.usesB : Format → Bool
  | .Z => false
  | .A => false
  | .AB => true
  | .S => true

/-- The format of a command (R51). -/
def format : Instr → Format
  | .seed _ => .S
  | .seedDefault => .Z
  | .next => .Z
  | .nextU _ => .A
  | .nextLU _ _ => .AB
  | .nextUint => .Z
  | .nextInt => .Z
  | .nextDouble => .Z
  | .nextDoubleNZ => .Z
  | .nextFloat => .Z
  | .nextBool => .Z
  | .nextByte => .Z
  | .nextBytes _ => .A

/-- The opcode of a command (R55). -/
def opcode : Instr → Byte
  | .seed _ => 0x01#8
  | .seedDefault => 0x02#8
  | .next => 0x10#8
  | .nextU _ => 0x11#8
  | .nextLU _ _ => 0x12#8
  | .nextUint => 0x13#8
  | .nextInt => 0x14#8
  | .nextDouble => 0x15#8
  | .nextDoubleNZ => 0x16#8
  | .nextFloat => 0x17#8
  | .nextBool => 0x18#8
  | .nextByte => 0x19#8
  | .nextBytes _ => 0x1A#8

/-- The first operand field of the canonical encoding (R51, R54). -/
def fieldA : Instr → Word
  | .seed v => v.extractLsb' 32 32
  | .seedDefault => 0
  | .next => 0
  | .nextU upper => pattern32 upper
  | .nextLU lower _ => pattern32 lower
  | .nextUint => 0
  | .nextInt => 0
  | .nextDouble => 0
  | .nextDoubleNZ => 0
  | .nextFloat => 0
  | .nextBool => 0
  | .nextByte => 0
  | .nextBytes len => BitVec.ofNat 32 len

/-- The second operand field of the canonical encoding (R51, R54). -/
def fieldB : Instr → Word
  | .seed v => v.extractLsb' 0 32
  | .seedDefault => 0
  | .next => 0
  | .nextU _ => 0
  | .nextLU _ upper => pattern32 upper
  | .nextUint => 0
  | .nextInt => 0
  | .nextDouble => 0
  | .nextDoubleNZ => 0
  | .nextFloat => 0
  | .nextBool => 0
  | .nextByte => 0
  | .nextBytes _ => 0

/-- The canonical encoding of a command (R50, R54). -/
def encode (i : Instr) : CmdWord := commandWord (opcode i) (fieldA i) (fieldB i)

/-- The command word whose bits, numbered as R50 numbers them, are the low `nbits` bits of `w`; the bits above are 0. -/
def tableWord (nbits w : Nat) : CmdWord := BitVec.ofNat 72 (w % 2 ^ nbits)

/-- What the decoder reads from a word numbered as spec/opcode_table.json numbers it (the table's `match` and `mask` are
72-bit values of the one command word, bit 0 the least significant). -/
def decodeTableWord (nbits w : Nat) : Option Instr :=
  match decode (tableWord nbits w) with
  | .ok i => some i
  | .error _ => none

end Sys2Proof
end

