-- ==== Sys2Proof/Config.lean ====
section
/-!
DEFINITION. The implementation parameters of R5 with the value this hardware takes, the bound on redraws of R96, and
the free values: constants without a body, about which nothing can be proved, for what the spec leaves unspecified
(93_implementation_defined.md U1 and U3).
-/

namespace Sys2Proof.Config

/-- `SHIFT_A` (R5, D1). -/
abbrev shiftA : Nat := 11

/-- `SHIFT_B` (R5, D1). -/
abbrev shiftB : Nat := 8

/-- `SHIFT_C` (R5, D1). -/
abbrev shiftC : Nat := 19

/-- `SEED_Y` (R5, D3). -/
abbrev seedY : Word := 0x32378FC7#32

/-- `SEED_Z` (R5, D3). -/
abbrev seedZ : Word := 0xD55F8767#32

/-- `SEED_W` (R5, D3). -/
abbrev seedW : Word := 0x104AA1AD#32

/-- `SEED_ZERO_REMAP` (R5, D4). -/
abbrev seedZeroRemap : DWord := 0x9E3779B97F4A7C15#64

/-- How many draws a redraw loop may make: R96 says an accepted word is drawn after at most `2^128 - 2` rejections, and
R123 treats its loop the same way. A loop that made more would be U9's `stuck` (log entry 5). -/
def maxDraws : Nat := 2 ^ 128 - 1

/-- DESIGN CHOICE, log entry 3. What reset event number `event` leaves in generator word `reg` that held `old`: R33
lets an implementation clear the word, keep it, or leave anything there. A free value: it has no body. -/
opaque wordAfterReset (event : Nat) (reg : Fin 4) (old : Word) : Word

/-- DESIGN CHOICE, log entry 4. What the `entropy` input holds before the host's first edge (U3). A free value. -/
opaque entropyAtReset : DWord

end Sys2Proof.Config
end

