-- ==== Sys2Proof/Machine/State.lean ====
section
/-!
DEFINITION. The state of the block (10_state.md R20 to R25), its response port (R30, R57, R58), what the host will drive
on the input ports (R30), and the state after reset (R33, R150). The block has no program counter, no memory, no
control register and no exception register (R26 to R28, R40, R137).
-/

namespace Sys2Proof.Machine

/-- The four generator words, `s[0]` to `s[3]` (R20). -/
structure Gen where
  x : Word
  y : Word
  z : Word
  w : Word
  deriving DecidableEq, Repr

/-- The status of a response (R59). -/
inductive Status where
  | ok
  | errInvalidRange
  | errNotSeeded
  | errIllegalCmd
  deriving DecidableEq, Repr

/-- The answer to one command (R10, R57, R58): its status, its data, and the byte stream of `NEXT_BYTES`. On the response
port `bytes` are those not yet delivered. -/
structure Response where
  status : Status
  data : DWord
  bytes : List Byte
  deriving DecidableEq, Repr

/-- What the response port carries while `rsp_valid = 1` (R30): one beat. -/
structure Beat where
  /-- `rsp_last` -/
  last : Bool
  /-- `rsp_status[1:0]` -/
  status : BitVec 2
  /-- `rsp_data[63:0]` -/
  data : DWord
  deriving DecidableEq, Repr

/-- What the host drives on the input ports at one rising edge of `clk` (R30). -/
structure Edge where
  /-- `rst` -/
  rst : Bool
  /-- `cmd_valid` -/
  cmdValid : Bool
  /-- `cmd[71:0]` -/
  cmd : CmdWord
  /-- `entropy[63:0]` -/
  entropy : DWord
  /-- `rsp_ready` -/
  rspReady : Bool
  deriving DecidableEq, Repr

/-- The machine. The first six fields are the nine registers of 10_state.md, `rsp` is the response being presented, the
rest is the model's own (log entries 2, 3, 4, 6, 10 and 12): inputs the host drives and a record of the beats it took. -/
structure State where
  /-- x, y, z, w (R20) -/
  gen : Gen
  /-- `seeded` (R22) -/
  seeded : Bool
  /-- `bitbuf` (R23) -/
  bitbuf : Word
  /-- `bitcnt` (R23) -/
  bitcnt : BitVec 6
  /-- `bytebuf` (R24) -/
  bytebuf : Word
  /-- `bytecnt` (R24) -/
  bytecnt : BitVec 3
  /-- The response not yet delivered whole, if any (R31). `none` is `cmd_ready = 1` outside reset. -/
  rsp : Option Response
  /-- The value on the `entropy` input at the present edge (R82). -/
  entropy : DWord
  /-- The command word presented at the preceding edge and not accepted there (R30). -/
  held : Option CmdWord
  /-- What the host drives at the edges to come. -/
  edges : List Edge
  /-- The beats the host has taken, oldest first. -/
  received : List Beat
  /-- How many reset events there have been since power-up (R152): 0 before the first one. It is also the index of the
  next reset's free values. -/
  resets : Nat
  deriving DecidableEq, Repr

/-- Why the machine stops. -/
inductive Fault where
  /-- Raised by `NEXT_U`, `NEXT_LU` and `NEXT_DOUBLE_NZ` when a redraw loop makes more than `Config.maxDraws` draws: the
  `stuck` of U9, which R96 and R123 say cannot happen from a reachable state. Safe: no value is answered. -/
  | redrawsExhausted
  deriving DecidableEq, Repr

/-- Why the machine gives no meaning. -/
inductive Refusal where
  /-- Raised by an arm of `exec` for an instruction that has no meaning yet. Safe. -/
  | notModelled (mnemonic : String)
  /-- Raised by a clock edge at which the host withholds what R30 and R156 oblige it to: it presents a command word other
  than the one it presented, unaccepted, at the edge before (U7: `refuse`). Safe. -/
  | unstableCommand
  /-- Raised by a clock edge, outside reset, at which the host presents a command word to a block that has had no reset
  event since power-up: the spec gives such a launch no meaning (R152: "refuse it"). Safe. -/
  | neverReset
  deriving DecidableEq, Repr

/-- The state after reset (R33, R150): `seeded = 0`, both caches empty, no response, x, y, z, w unspecified (free values,
log entry 3), the host's edges still to be given (log entry 8). -/
def State.reset : State where
  gen :=
    { x := Config.wordAfterReset 0 0 0
      y := Config.wordAfterReset 0 1 0
      z := Config.wordAfterReset 0 2 0
      w := Config.wordAfterReset 0 3 0 }
  seeded := false
  bitbuf := 0
  bitcnt := 0
  bytebuf := 0
  bytecnt := 0
  rsp := none
  entropy := Config.entropyAtReset
  held := none
  edges := []
  received := []
  resets := 1

end Sys2Proof.Machine
end

