-- ==== Sys2Proof/Machine/Ops.lean ====
section
/-!
DEFINITION. The shared operations of the block: the step unit (R70), seeding (R80), the bounded draw (R90), the response
(R57, R58) and the error response (R130). A meaning reads and writes the state through these only.
-/

namespace Sys2Proof.Machine

/-- What a meaning answers. -/
abbrev Result := Host.Outcome State Fault Refusal

/-! ## The step unit -/

/-- `Step()` of R70, the four words after it. The four writes happen together. The raw word it returns is the new `w`. -/
def Gen.step (g : Gen) : Gen :=
  let t := g.x ^^^ (g.x <<< Config.shiftA)
  let n := (g.w ^^^ (g.w >>> Config.shiftC)) ^^^ (t ^^^ (t >>> Config.shiftB))
  { x := g.y, y := g.z, z := g.w, w := n }

/-- The words after `k` calls of `Step()` (R77). -/
def Gen.advance : Nat → Gen → Gen
  | 0, g => g
  | k + 1, g => Gen.advance k g.step

/-- The raw word that call number `k` of `Step()` from `g` returns, `k` counted from 0 (R41, R77). -/
def Gen.raw (g : Gen) (k : Nat) : Word := (Gen.advance (k + 1) g).w

/-! ## Named updates of the state -/

/-- Write x, y, z, w. -/
def State.withGen (s : State) (g : Gen) : State := { s with gen := g }

/-- Write `bitbuf` and `bitcnt`. -/
def State.withBitCache (s : State) (buf : Word) (cnt : BitVec 6) : State := { s with bitbuf := buf, bitcnt := cnt }

/-- Write `bytebuf` and `bytecnt`. -/
def State.withByteCache (s : State) (buf : Word) (cnt : BitVec 3) : State := { s with bytebuf := buf, bytecnt := cnt }

/-- Present a response. -/
def State.withResponse (s : State) (r : Response) : State := { s with rsp := some r }

/-! ## Responses -/

/-- The status code of R59. -/
def Status.code : Status → BitVec 2
  | .ok => 0
  | .errInvalidRange => 1
  | .errNotSeeded => 2
  | .errIllegalCmd => 3

/-- `respond(OK, data)` after the bytes emitted so far (R9, R57, R58). -/
def respondBytes (bytes : List Byte) (data : DWord) (s : State) : Result :=
  .next (s.withResponse { status := .ok, data := data, bytes := bytes })

/-- `respond(OK, data)` of a command that emits no byte (R57). -/
def respond (data : DWord) (s : State) : Result := respondBytes [] data s

/-- The three errors of R130. -/
inductive Error where
  | invalidRange
  | notSeeded
  | illegalCmd
  deriving DecidableEq, Repr

/-- The status code's name of an error (R130). -/
def Error.status : Error → Status
  | .invalidRange => .errInvalidRange
  | .notSeeded => .errNotSeeded
  | .illegalCmd => .errIllegalCmd

/-- `raise <Error>` (R9, R130): no register is written, no byte is emitted, the answer is the error's status with data 0.
This is all the exception entry the block has (R137), and there is no return from it (R138). -/
def raise (e : Error) (s : State) : Result :=
  .next (s.withResponse { status := e.status, data := 0, bytes := [] })

/-! ## Drawing -/

/-- `r <- Step()` in a command: the continuation gets the raw word and the state with x, y, z, w advanced (R70). -/
def draw (s : State) (k : Word → State → Result) : Result :=
  k (s.gen.raw 0) (s.withGen (s.gen.advance 1))

/-- The largest multiple of `n` that does not exceed `2^32` (R90). -/
def boundedLimit (n : Nat) : Nat := 2 ^ 32 - 2 ^ 32 % n

/-- The loop of R90, with the number of draws it may still make: the result and the words after it, or `none` when the
draws run out. -/
def boundedLoop (n limit : Nat) : Nat → Gen → Option (Nat × Gen)
  | 0, _ => none
  | fuel + 1, g =>
    let g' := g.step
    if g'.w.toNat < limit then some (g'.w.toNat % n, g') else boundedLoop n limit fuel g'

/-- `Bounded(n)` of R90: rejection against `boundedLimit n`, then remainder. -/
def bounded (n : Nat) (g : Gen) : Option (Nat × Gen) := boundedLoop n (boundedLimit n) Config.maxDraws g

/-- `v <- Bounded(n)` in a command. Running out of draws is the fault of U9. -/
def drawBounded (n : Nat) (s : State) (k : Nat → State → Result) : Result :=
  match bounded n s.gen with
  | some (v, g) => k v (s.withGen g)
  | none => .fault .redrawsExhausted

/-! ## Seeding -/

/-- The remap of a zero seed (R80). -/
def remapSeed (v : DWord) : DWord := if v = 0 then Config.seedZeroRemap else v

/-- The four words `SeedExpand` loads (R80). -/
def seedWords (v : DWord) : Gen :=
  let s := remapSeed v
  { x := s.extractLsb' 0 32
    y := s.extractLsb' 32 32 ^^^ Config.seedY
    z := Config.seedZ
    w := Config.seedW }

/-- `SeedExpand(s)` of R80: the four words, `seeded`, and both caches emptied. -/
def seedExpand (v : DWord) (s : State) : State :=
  { s with
    gen := seedWords v
    seeded := true
    bitbuf := 0
    bitcnt := 0
    bytebuf := 0
    bytecnt := 0 }

end Sys2Proof.Machine
end

