-- ==== Sys2Proof/Machine/Flags.lean ====
section
/-!
DEFINITION. The flag-like state of the block (R28): the check of `seeded` that begins every drawing command (R132), and
the two sub-word caches with their counters (R23, R24). No other flag exists.
-/

namespace Sys2Proof.Machine

/-- `if seeded = 0 then raise NotSeeded` (R22, R132), then the rest of the command. -/
def ifSeeded (s : State) (rest : Result) : Result :=
  if s.seeded then rest else raise .notSeeded s

/-- `if bitcnt = 0 then bitbuf <- Step() ; bitcnt <- 32` (R105). -/
def refillBits (s : State) : State :=
  if s.bitcnt = 0 then (s.withGen (s.gen.advance 1)).withBitCache (s.gen.raw 0) 32 else s

/-- `bitbuf <- bitbuf >> 1 ; bitcnt <- bitcnt - 1` (R105). -/
def dropBit (s : State) : State := s.withBitCache (s.bitbuf >>> 1) (s.bitcnt - 1)

/-- `if bytecnt = 0 then bytebuf <- Step() ; bytecnt <- 4` (R106). -/
def refillBytes (s : State) : State :=
  if s.bytecnt = 0 then (s.withGen (s.gen.advance 1)).withByteCache (s.gen.raw 0) 4 else s

/-- `bytebuf <- bytebuf >> 8 ; bytecnt <- bytecnt - 1` (R106). -/
def dropByte (s : State) : State := s.withByteCache (s.bytebuf >>> 8) (s.bytecnt - 1)

end Sys2Proof.Machine
end

