-- ==== Sys2Proof/Machine/Operands.lean ====
section
/-!
DEFINITION. Operand checks and result placement of the adapters: the range checks (R101, R102, R131), the width of a
range, zero extension into `data` (R57), the bytes of a word (R41), and the bit patterns of binary64 and binary32 (R120,
R124). Reading operands out of the command word (R52) is the decoder's.
-/

namespace Sys2Proof.Machine

/-- `upper <= 0`, on integers (R101). -/
def emptyBelow (upper : Int) : Bool := decide (upper ≤ 0)

/-- `upper <= lower`, on integers (R102). -/
def emptyBetween (lower upper : Int) : Bool := decide (upper ≤ lower)

/-- `n <- upper - lower`, where it is positive (R102). -/
def rangeWidth (lower upper : Int) : Nat := (upper - lower).toNat

/-- `zext_64` of a word (R57). -/
def zextWord (v : Word) : DWord := v.setWidth 64

/-- `zext_64` of a byte (R57). -/
def zextByte (v : Byte) : DWord := v.setWidth 64

/-- `zext_64` of one bit (R57). -/
def zextBit (v : Bool) : DWord := if v then 1 else 0

/-- `zext_64` of a number (R101). -/
def zextNat (v : Nat) : DWord := BitVec.ofNat 64 v

/-- `zext_64(res mod 2^32)`: the two's complement pattern of `res` in bits 31:0, zeros above (R102, D11). -/
def int32Data (res : Int) : DWord := (BitVec.ofInt 32 res).setWidth 64

/-- `r & 0x7FFFFFFF` (R100, R104). -/
def maskSign (r : Word) : Word := r &&& 0x7FFFFFFF#32

/-- Bits `8j+7 : 8j` of a word (R41). -/
def byteOf (r : Word) (j : Nat) : Byte := r.extractLsb' (8 * j) 8

/-- The four bytes of a word, least significant first (R41). -/
def wordBytes (r : Word) : List Byte := [byteOf r 0, byteOf r 1, byteOf r 2, byteOf r 3]

/-- `msb(m)`: the index of the most significant 1 bit of `m >= 1` (R8). -/
def msbIndex (m : Nat) : Nat := Nat.log2 m

/-- `F64(m)`: the binary64 pattern of `m / 2^53` for `m < 2^53` (R120). -/
def f64 (m : Nat) : DWord :=
  if m = 0 then 0
  else
    let k := msbIndex m
    let e : BitVec 11 := BitVec.ofNat 11 (970 + k)
    let f : DWord := (BitVec.ofNat 64 m <<< (52 - k)) &&& 0x000FFFFFFFFFFFFF#64
    0#1 ++ e ++ f.extractLsb' 0 52

/-- `F32(m)`: the binary32 pattern of `m / 2^24` for `m < 2^24` (R124). -/
def f32 (m : Nat) : Word :=
  if m = 0 then 0
  else
    let k := msbIndex m
    let e : Byte := BitVec.ofNat 8 (103 + k)
    let f : Word := (BitVec.ofNat 32 m <<< (23 - k)) &&& 0x007FFFFF#32
    0#1 ++ e ++ f.extractLsb' 0 23

/-- `{hi[26:0], lo[25:0]}` from two raw words (R121). -/
def join53 (r1 r2 : Word) : Nat := (r1 >>> 5).toNat * 2 ^ 26 + (r2 >>> 6).toNat

/-- The 24 high bits of a word (R125). -/
def high24 (r : Word) : Nat := (r >>> 8).toNat

end Sys2Proof.Machine
end

