-- ==== Sys2Proof/Machine/RangeFloat.lean ====
section
/-!
DEFINITION. The floating-point commands of `range_adapter_float` (44_range_adapter_float.md R121 to R125).
-/

namespace Sys2Proof.Machine

/-- `Real53()` (R121): two draws, the first word the more significant. -/
def real53 (g : Gen) : Nat × Gen := (join53 (g.raw 0) (g.raw 1), g.advance 2)

/-- `NEXT_DOUBLE` (R122). -/
def execNextDouble (s : State) : Result :=
  ifSeeded s
    (let m := real53 s.gen
     respond (f64 m.1) (s.withGen m.2))

/-- The loop of R123, with the number of attempts it may still make: the first non-zero `Real53` and the words after it,
or `none` when the attempts run out. -/
def nonZeroLoop : Nat → Gen → Option (Nat × Gen)
  | 0, _ => none
  | fuel + 1, g =>
    let m := real53 g
    if m.1 = 0 then nonZeroLoop fuel m.2 else some m

/-- `NEXT_DOUBLE_NZ` (R123). Running out of attempts is the fault of U9. -/
def execNextDoubleNZ (s : State) : Result :=
  ifSeeded s
    (match nonZeroLoop Config.maxDraws s.gen with
     | some (m, g) => respond (f64 m) (s.withGen g)
     | none => .fault .redrawsExhausted)

/-- `NEXT_FLOAT` (R125). -/
def execNextFloat (s : State) : Result :=
  ifSeeded s (draw s fun r s' => respond (zextWord (f32 (high24 r))) s')

end Sys2Proof.Machine
end

