-- ==== Sys2Proof/Machine/RangeInt.lean ====
section
/-!
DEFINITION. The integer, Boolean and byte commands of `range_adapter_int` (43_range_adapter_int.md R100 to R107).
-/

namespace Sys2Proof.Machine

/-- `NEXT` (R100). -/
def execNext (s : State) : Result :=
  ifSeeded s (draw s fun r s' => respond (zextWord (maskSign r)) s')

/-- `NEXT_U` (R101). -/
def execNextU (upper : Int) (s : State) : Result :=
  ifSeeded s
    (if emptyBelow upper then raise .invalidRange s
     else drawBounded upper.toNat s fun v s' => respond (zextNat v) s')

/-- `NEXT_LU` (R102). -/
def execNextLU (lower upper : Int) (s : State) : Result :=
  ifSeeded s
    (if emptyBetween lower upper then raise .invalidRange s
     else drawBounded (rangeWidth lower upper) s fun v s' => respond (int32Data (lower + v)) s')

/-- `NEXT_UINT` (R103). -/
def execNextUint (s : State) : Result :=
  ifSeeded s (draw s fun r s' => respond (zextWord r) s')

/-- `NEXT_INT` (R104). -/
def execNextInt (s : State) : Result :=
  ifSeeded s (draw s fun r s' => respond (zextWord (maskSign r)) s')

/-- `NEXT_BOOL` (R105). -/
def execNextBool (s : State) : Result :=
  ifSeeded s
    (let s1 := refillBits s
     respond (zextBit (s1.bitbuf.getLsbD 0)) (dropBit s1))

/-- `NEXT_BYTE` (R106). -/
def execNextByte (s : State) : Result :=
  ifSeeded s
    (let s1 := refillBytes s
     respond (zextByte (byteOf s1.bytebuf 0)) (dropByte s1))

/-- The word loop of `NEXT_BYTES` (R107): `count` words, four bytes each, and the generator words after them. -/
def emitWords : Nat → Gen → List Byte × Gen
  | 0, g => ([], g)
  | count + 1, g =>
    let g' := g.step
    let rest := emitWords count g'
    (wordBytes g'.w ++ rest.1, rest.2)

/-- The tail of `NEXT_BYTES` (R107): the low `rem` bytes of one more word, or nothing when `rem = 0`. -/
def emitTail (rem : Nat) (g : Gen) : List Byte × Gen :=
  if rem = 0 then ([], g)
  else
    let g' := g.step
    ((wordBytes g'.w).take rem, g')

/-- `NEXT_BYTES` (R107). -/
def execNextBytes (len : Nat) (s : State) : Result :=
  ifSeeded s
    (let full := emitWords (len / 4) s.gen
     let tail := emitTail (len % 4) full.2
     respondBytes (full.1 ++ tail.1) 0 (s.withGen tail.2))

end Sys2Proof.Machine
end

