-- ==== Sys2Proof/Machine/Seeding.lean ====
section
/-!
DEFINITION. The two seeding commands (41_seeding.md R83, R84).
-/

namespace Sys2Proof.Machine

/-- `SEED` (R83). -/
def execSeed (value : DWord) (s : State) : Result := respond 0 (seedExpand value s)

/-- `SEED_DEFAULT` (R84): the seed is the value on the `entropy` input at the accepting edge. -/
def execSeedDefault (s : State) : Result := respond 0 (seedExpand s.entropy s)

end Sys2Proof.Machine
end

