-- ==== Sys2Proof/Machine/Dispatch.lean ====
section
/-!
DEFINITION. One arm per command of R55, each one call of the command's own meaning.
-/

namespace Sys2Proof.Machine

def exec (i : Instr) (s : State) : Host.Outcome State Fault Refusal :=
  match i with
  -- 41_seeding.md
  | .seed value => Sys2Proof.Machine.execSeed value s
  | .seedDefault => Sys2Proof.Machine.execSeedDefault s
  -- 43_range_adapter_int.md and 44_range_adapter_float.md, in the table's order
  | .next => Sys2Proof.Machine.execNext s
  | .nextU upper => Sys2Proof.Machine.execNextU upper s
  | .nextLU lower upper => Sys2Proof.Machine.execNextLU lower upper s
  | .nextUint => Sys2Proof.Machine.execNextUint s
  | .nextInt => Sys2Proof.Machine.execNextInt s
  | .nextDouble => Sys2Proof.Machine.execNextDouble s
  | .nextDoubleNZ => Sys2Proof.Machine.execNextDoubleNZ s
  | .nextFloat => Sys2Proof.Machine.execNextFloat s
  | .nextBool => Sys2Proof.Machine.execNextBool s
  | .nextByte => Sys2Proof.Machine.execNextByte s
  | .nextBytes len => Sys2Proof.Machine.execNextBytes len s

end Sys2Proof.Machine
end

