-- ==== Sys2Proof/Machine/Ports.lean ====
section
/-!
DEFINITION. The ports (10_state.md R30, R31): what the block presents, and what it does at one rising edge of `clk`:
reset (R150, R151), accept a command (R53), deliver a beat (R58), or nothing.
-/

namespace Sys2Proof.Machine

/-- `cmd_ready` (R31, R150): no response is outstanding, and `rst = 0`. -/
def cmdReady (rst : Bool) (s : State) : Bool := !rst && s.rsp.isNone

/-- The next beat of a response (R57, R58): a data beat while bytes are left, then the completion beat. -/
def Response.beat (r : Response) : Beat :=
  match r.bytes with
  | [] => { last := true, status := r.status.code, data := r.data }
  | b :: _ => { last := false, status := 0, data := zextByte b }

/-- What is left of a response once its next beat is delivered: nothing after the completion beat (R57). -/
def Response.afterBeat (r : Response) : Option Response :=
  match r.bytes with
  | [] => none
  | _ :: bs => some { r with bytes := bs }

/-- The response port (R30): `none` is `rsp_valid = 0`, where the other signals have no meaning (log entry 9). -/
def rspBeat (rst : Bool) (s : State) : Option Beat :=
  match rst, s.rsp with
  | false, some r => some r.beat
  | _, _ => none

/-- All beats of a response in the order they are delivered (R58). -/
def Response.beats (r : Response) : List Beat :=
  r.bytes.map (fun b => { last := false, status := 0, data := zextByte b })
    ++ [{ last := true, status := r.status.code, data := r.data }]

/-- Accepting a command word (R53): a reserved opcode is `IllegalCmd` (R133), any other word is its command. -/
def accept (c : CmdWord) (s : State) : Result :=
  match decode c with
  | .ok i => exec i s
  | .error _ => raise .illegalCmd s

/-- The host takes the beat on the response port (R30). With no beat there nothing happens. -/
def deliver (s : State) : State :=
  match s.rsp with
  | some r => { s with rsp := r.afterBeat, received := s.received ++ [r.beat] }
  | none => s

/-- What a reset edge makes of the generator words: R33 leaves them unspecified (log entry 3). -/
def wordsAfterReset (event : Nat) (g : Gen) : Gen :=
  { x := Config.wordAfterReset event 0 g.x
    y := Config.wordAfterReset event 1 g.y
    z := Config.wordAfterReset event 2 g.z
    w := Config.wordAfterReset event 3 g.w }

/-- The reset event (R150, R151): the five registers of R33 cleared, an outstanding response abandoned. -/
def resetEvent (s : State) : State :=
  { s with
    gen := wordsAfterReset s.resets s.gen
    seeded := false
    bitbuf := 0
    bitcnt := 0
    bytebuf := 0
    bytecnt := 0
    rsp := none
    resets := s.resets + 1 }

/-- The command word the host presents at this edge, if any. -/
def Edge.presented (e : Edge) : Option CmdWord := if e.cmdValid then some e.cmd else none

/-- The host presents another word than the one it presented, unaccepted, at the edge before (R30, R156, U7). -/
def unstable (e : Edge) (s : State) : Bool :=
  match s.held with
  | some c => e.cmdValid && decide (e.cmd ≠ c)
  | none => false

/-- What the host does at this edge, outside reset, that the spec gives no meaning: a command before the first reset
event (R152), or an unstable command word (U7). -/
def hostRefusal (e : Edge) (s : State) : Option Refusal :=
  if e.cmdValid && decide (s.resets = 0) then some .neverReset
  else if unstable e s then some .unstableCommand
  else none

/-- The state with the inputs of this edge sampled: `entropy`, and the command word that is still to be accepted. -/
def sampleInputs (e : Edge) (held : Option CmdWord) (s : State) : State :=
  { s with entropy := e.entropy, held := held }

/-- One rising edge of `clk` (R30, R31, R150). Reset wins over everything. Otherwise the block accepts a command where
`cmd_valid = cmd_ready = 1`, delivers a beat where `rsp_valid = rsp_ready = 1`, and else keeps its state. -/
def onEdge (e : Edge) (s : State) : Result :=
  if e.rst then .next (sampleInputs e e.presented (resetEvent s))
  else
    match hostRefusal e s with
    | some r => .refused r
    | none =>
      if cmdReady e.rst s then
        if e.cmdValid then accept e.cmd (sampleInputs e none s)
        else .next (sampleInputs e none s)
      else if e.rspReady then .next (deliver (sampleInputs e e.presented s))
      else .next (sampleInputs e e.presented s)

/-- The edge at which the host presents a command word and takes no beat. -/
def presentEdge (c : CmdWord) (entropy : DWord) : Edge :=
  { rst := false, cmdValid := true, cmd := c, entropy := entropy, rspReady := false }

end Sys2Proof.Machine
end

