-- ==== Sys2Proof/Machine/Step.lean ====
section
/-!
DEFINITION. One step of the machine: the next of the clock edges the host drives (log entries 1, 2 and 7).
-/

namespace Sys2Proof.Machine

/-- One step: the next edge of the host. With no edge given the block is idle or holds its beat, and stays so (R154). -/
def step (s : State) : Host.Outcome State Fault Refusal :=
  match s.edges with
  | [] => .next s
  | e :: rest => onEdge e { s with edges := rest }

/-- The state in which the very next edge presents the command word numbered as spec/opcode_table.json numbers it, to a
block that is ready for it (R31): no response outstanding, no other word presented before, a reset event behind it (R152).
The `entropy` input keeps its value. Log entry 8. -/
def State.withFetchWord (s : State) (nbits w : Nat) : State :=
  { s with
    rsp := none
    held := none
    edges := presentEdge (tableWord nbits w) s.entropy :: s.edges
    resets := max s.resets 1 }

end Sys2Proof.Machine
end

