-- ==== Sys2Proof/Machine/Asm.lean ====
section
/-!
DEFINITION. The assembler of R60 with the pseudo-instruction and the directives of R61: from one line of text to a
command or a directive, and from a list of those to the clock edges a host drives for them. The lexical details the
spec leaves open are log entry 13.
-/

namespace Sys2Proof.Asm

/-- One assembled line (R60, R61). `SEED32` is no line of its own: it is `SEED` with a zero-extended operand. -/
inductive Line where
  /-- A command, written in its canonical encoding. -/
  | command (i : Instr)
  /-- `.reset`: the host asserts `rst` for one clock edge. -/
  | reset
  /-- `.entropy <u64>`: from here on the `entropy` port holds the value. -/
  | entropy (v : DWord)
  /-- `.word <72-bit hex>`: presents the given raw command word. -/
  | word (c : CmdWord)
  deriving DecidableEq, Repr

/-- White space between the parts of a line. -/
def isBlank (c : Char) : Bool := c == ' ' || c == '\t'

/-- `;` starts a comment (R60). -/
def stripComment : List Char → List Char
  | [] => []
  | c :: cs => if c = ';' then [] else c :: stripComment cs

/-- A text without the white space at its two ends. -/
def trim (cs : List Char) : List Char := ((cs.dropWhile isBlank).reverse.dropWhile isBlank).reverse

/-- Operands are separated by `,` (R60). -/
def splitCommas : List Char → List (List Char)
  | [] => [[]]
  | c :: cs =>
    if c = ',' then [] :: splitCommas cs
    else
      match splitCommas cs with
      | [] => [[c]]
      | f :: fs => (c :: f) :: fs

/-- The operands of a line: none where no text follows the mnemonic. -/
def operands (cs : List Char) : List (List Char) :=
  match trim cs with
  | [] => []
  | t => (splitCommas t).map trim

/-- The value of a digit in a base of at most 16. -/
def digitValue (base : Nat) (c : Char) : Option Nat :=
  let n := c.toNat
  let v :=
    if 48 ≤ n ∧ n ≤ 57 then n - 48
    else if 65 ≤ n ∧ n ≤ 70 then n - 55
    else if 97 ≤ n ∧ n ≤ 102 then n - 87
    else base
  if v < base then some v else none

/-- The digits after the first; `_` inside a literal only groups digits (R7). -/
def digitsFrom (base : Nat) (acc : Nat) : List Char → Option Nat
  | [] => some acc
  | '_' :: [] => none
  | '_' :: c :: cs => digitsFrom base acc (c :: cs)
  | c :: cs =>
    match digitValue base c with
    | some d => digitsFrom base (acc * base + d) cs
    | none => none

/-- A literal that begins with a digit of its base. -/
def parseDigits (base : Nat) : List Char → Option Nat
  | [] => none
  | c :: cs =>
    match digitValue base c with
    | some d => digitsFrom base d cs
    | none => none

/-- An unsigned literal: decimal, or hexadecimal with `0x` (R60). -/
def parseNat : List Char → Option Nat
  | '0' :: 'x' :: cs => parseDigits 16 cs
  | cs => parseDigits 10 cs

/-- A signed literal: decimal with an optional leading `-`, or hexadecimal with `0x` (R60). -/
def parseInt : List Char → Option Int
  | '-' :: cs =>
    match parseDigits 10 cs with
    | some n => some (-(n : Int))
    | none => none
  | cs =>
    match parseNat cs with
    | some n => some (n : Int)
    | none => none

/-- A literal below `2^width`: `<u32>`, `<u64>` or the 72 bits of `.word` (R60, R61). -/
def parseBits (width : Nat) (cs : List Char) : Option (BitVec width) :=
  match parseNat cs with
  | some n => if n < 2 ^ width then some (BitVec.ofNat width n) else none
  | none => none

/-- The 72-bit literal of `.word`, hexadecimal (R61). -/
def parseWord : List Char → Option CmdWord
  | '0' :: 'x' :: cs => parseBits 72 ('0' :: 'x' :: cs)
  | _ => none

/-- A command with its operands checked (R60: "The assembler rejects an operand outside its type"). -/
def checked (i : Instr) : Option Line := if i.wellFormed then some (.command i) else none

/-- A mnemonic without operands. -/
def bare (i : Instr) : List (List Char) → Option Line
  | [] => checked i
  | _ => none

/-- `SEED <u64>`. -/
def parseSeed : List (List Char) → Option Line
  | [v] => (parseBits 64 v).bind fun v => checked (.seed v)
  | _ => none

/-- `SEED32 <u32>`: `SEED` with the operand zero-extended to 64 bits (R61). -/
def parseSeed32 : List (List Char) → Option Line
  | [v] => (parseBits 32 v).bind fun v => checked (.seed (v.setWidth 64))
  | _ => none

/-- `NEXT_U <i32>`. -/
def parseNextU : List (List Char) → Option Line
  | [u] => (parseInt u).bind fun u => checked (.nextU u)
  | _ => none

/-- `NEXT_LU <i32>, <i32>`. -/
def parseNextLU : List (List Char) → Option Line
  | [l, u] => (parseInt l).bind fun l => (parseInt u).bind fun u => checked (.nextLU l u)
  | _ => none

/-- `NEXT_BYTES <u32>`. -/
def parseNextBytes : List (List Char) → Option Line
  | [n] => (parseNat n).bind fun n => checked (.nextBytes n)
  | _ => none

/-- `.reset`. -/
def parseReset : List (List Char) → Option Line
  | [] => some .reset
  | _ => none

/-- `.entropy <u64>`. -/
def parseEntropy : List (List Char) → Option Line
  | [v] => (parseBits 64 v).map .entropy
  | _ => none

/-- `.word <72-bit hex>`. -/
def parseRaw : List (List Char) → Option Line
  | [v] => (parseWord v).map .word
  | _ => none

/-- The line's mnemonic and its operands (R60, R61). Mnemonics are upper case. -/
def parseStatement (mnemonic : List Char) (ops : List (List Char)) : Option Line :=
  if mnemonic = ['S', 'E', 'E', 'D'] then parseSeed ops
  else if mnemonic = ['S', 'E', 'E', 'D', '3', '2'] then parseSeed32 ops
  else if mnemonic = ['S', 'E', 'E', 'D', '_', 'D', 'E', 'F', 'A', 'U', 'L', 'T'] then bare .seedDefault ops
  else if mnemonic = ['N', 'E', 'X', 'T'] then bare .next ops
  else if mnemonic = ['N', 'E', 'X', 'T', '_', 'U'] then parseNextU ops
  else if mnemonic = ['N', 'E', 'X', 'T', '_', 'L', 'U'] then parseNextLU ops
  else if mnemonic = ['N', 'E', 'X', 'T', '_', 'U', 'I', 'N', 'T'] then bare .nextUint ops
  else if mnemonic = ['N', 'E', 'X', 'T', '_', 'I', 'N', 'T'] then bare .nextInt ops
  else if mnemonic = ['N', 'E', 'X', 'T', '_', 'D', 'O', 'U', 'B', 'L', 'E'] then bare .nextDouble ops
  else if mnemonic = ['N', 'E', 'X', 'T', '_', 'D', 'O', 'U', 'B', 'L', 'E', '_', 'N', 'Z'] then bare .nextDoubleNZ ops
  else if mnemonic = ['N', 'E', 'X', 'T', '_', 'F', 'L', 'O', 'A', 'T'] then bare .nextFloat ops
  else if mnemonic = ['N', 'E', 'X', 'T', '_', 'B', 'O', 'O', 'L'] then bare .nextBool ops
  else if mnemonic = ['N', 'E', 'X', 'T', '_', 'B', 'Y', 'T', 'E'] then bare .nextByte ops
  else if mnemonic = ['N', 'E', 'X', 'T', '_', 'B', 'Y', 'T', 'E', 'S'] then parseNextBytes ops
  else if mnemonic = ['.', 'r', 'e', 's', 'e', 't'] then parseReset ops
  else if mnemonic = ['.', 'e', 'n', 't', 'r', 'o', 'p', 'y'] then parseEntropy ops
  else if mnemonic = ['.', 'w', 'o', 'r', 'd'] then parseRaw ops
  else none

/-- One line of text (R60): `some []` for a line with nothing but white space and a comment, `none` for a line the
assembler rejects. -/
def parseLine (text : List Char) : Option (List Line) :=
  match trim (stripComment text) with
  | [] => some []
  | t =>
    (parseStatement (t.takeWhile fun c => !isBlank c) (operands (t.dropWhile fun c => !isBlank c))).map fun l => [l]

/-- How many data beats the answer to a command word can have (R58). -/
def dataBeats (c : CmdWord) : Nat :=
  match decode c with
  | .ok (.nextBytes len) => len
  | _ => 0

/-- An edge at which the host takes a beat if there is one. -/
def takeEdge (entropy : DWord) : Machine.Edge :=
  { rst := false, cmdValid := false, cmd := 0, entropy := entropy, rspReady := true }

/-- The edge of `.reset` (R61, R150). -/
def resetEdge (entropy : DWord) : Machine.Edge :=
  { rst := true, cmdValid := false, cmd := 0, entropy := entropy, rspReady := false }

/-- The edges of one command: the host presents it, then takes every beat of the answer (R31, R159). -/
def commandEdges (entropy : DWord) (c : CmdWord) : List Machine.Edge :=
  Machine.presentEdge c entropy :: List.replicate (dataBeats c + 1) (takeEdge entropy)

/-- The edges of a program, `entropy` being what the port holds before its first `.entropy` line (R61). -/
def programEdges (entropy : DWord) : List Line → List Machine.Edge
  | [] => []
  | .command i :: rest => commandEdges entropy (encode i) ++ programEdges entropy rest
  | .reset :: rest => resetEdge entropy :: programEdges entropy rest
  | .entropy v :: rest => programEdges v rest
  | .word c :: rest => commandEdges entropy c ++ programEdges entropy rest

end Sys2Proof.Asm
end

