-- ==== Sys2Proof/Safety.lean ====
section
/-!
DEFINITION. What a state must meet, in the terms the statements use: the state invariant of R21, the cache invariants of
R25, the form of an outstanding response (R57), and the causes of the errors of R130.
-/

namespace Sys2Proof.Machine

/-- The all-zero state, the degenerate fixed point of the step function (R11, R73). -/
def Gen.zero : Gen := { x := 0, y := 0, z := 0, w := 0 }

/-- R21: whenever `seeded = 1`, the state is not all-zero. -/
abbrev State.NonDegenerate (s : State) : Prop := s.seeded = true → s.gen ≠ Gen.zero

/-- R25, the Boolean cache: `bitcnt` never exceeds 32 and `bitbuf < 2^bitcnt`. -/
abbrev State.BitCacheOk (s : State) : Prop := s.bitcnt.toNat ≤ 32 ∧ s.bitbuf.toNat < 2 ^ s.bitcnt.toNat

/-- R25, the byte cache: `bytecnt` never exceeds 4 and `bytebuf < 2^(8 * bytecnt)`. -/
abbrev State.ByteCacheOk (s : State) : Prop := s.bytecnt.toNat ≤ 4 ∧ s.bytebuf.toNat < 2 ^ (8 * s.bytecnt.toNat)

/-- The eleven drawing commands: all but `SEED` and `SEED_DEFAULT` (R130). -/
def draws : Instr → Bool
  | .seed _ => false
  | .seedDefault => false
  | .next => true
  | .nextU _ => true
  | .nextLU _ _ => true
  | .nextUint => true
  | .nextInt => true
  | .nextDouble => true
  | .nextDoubleNZ => true
  | .nextFloat => true
  | .nextBool => true
  | .nextByte => true
  | .nextBytes _ => true

/-- The cause of `InvalidRange` (R130): `upper <= 0` for `NEXT_U`, `upper <= lower` for `NEXT_LU`. -/
def badRange : Instr → Prop
  | .seed _ => False
  | .seedDefault => False
  | .next => False
  | .nextU upper => upper ≤ 0
  | .nextLU lower upper => upper ≤ lower
  | .nextUint => False
  | .nextInt => False
  | .nextDouble => False
  | .nextDoubleNZ => False
  | .nextFloat => False
  | .nextBool => False
  | .nextByte => False
  | .nextBytes _ => False

/-- R57, R58: when `status != OK`, `data = 0` and there are no data beats. -/
abbrev Response.WellFormed (r : Response) : Prop := r.status ≠ .ok → r.data = 0 ∧ r.bytes = []

/-- R57, R58: an outstanding response, if any, is well-formed. -/
abbrev State.ResponseOk (s : State) : Prop := ∀ r ∈ s.rsp, r.WellFormed

/-- The invariant of the machine: R21, R25 and the form of the response. -/
abbrev State.Inv (s : State) : Prop := s.NonDegenerate ∧ s.BitCacheOk ∧ s.ByteCacheOk ∧ s.ResponseOk

/-- R90: call number `k` of `Step()` from `g` is the first whose raw word is below `limit`; the `k` words before it are
rejected. -/
abbrev Gen.FirstBelow (g : Gen) (limit k : Nat) : Prop :=
  (∀ j, j < k → limit ≤ (g.raw j).toNat) ∧ (g.raw k).toNat < limit

/-- The 53-bit number of attempt `j` of R123, counted from 0: calls `2j` and `2j + 1` of `Step()`. -/
def Gen.attempt (g : Gen) (j : Nat) : Nat := join53 (g.raw (2 * j)) (g.raw (2 * j + 1))

/-- R123: attempt `k` is the first that does not give zero. -/
abbrev Gen.FirstNonZero (g : Gen) (k : Nat) : Prop := (∀ j, j < k → g.attempt j = 0) ∧ g.attempt k ≠ 0

/-- The host presents the command word `e.cmd` at the next edge `e`, and the block accepts it there (R30, R31): no reset,
no response outstanding, no other word presented before, and a reset event since power-up. `rest` is what the host drives after it. -/
abbrev State.Accepts (s : State) (e : Edge) (rest : List Edge) : Prop :=
  s.edges = e :: rest ∧ e.rst = false ∧ e.cmdValid = true ∧ s.rsp = none ∧ hostRefusal e s = none

/-- The state in which the block executes the command it accepts at edge `e`. -/
def State.atAccept (s : State) (e : Edge) (rest : List Edge) : State :=
  { s with edges := rest, entropy := e.entropy, held := none }

end Sys2Proof.Machine
end

