-- ==== Sys2Proof/Certificates/Slice0/Obligations.lean ====
section
/-!
DEFINITION. The statements for the provers. Each docstring names the rules of spec/ it formalises. A statement that gives
the whole next state of a command (`{ s with … }`) is its result, its frame and its completion at once: every field it
does not name is unchanged.
-/

namespace Sys2Proof.Machine

/-! ## Terms of the statements -/

/-- The nine registers of the block (10_state.md): everything that survives from one command to the next (R29). -/
structure Nine where
  gen : Gen
  seeded : Bool
  bitbuf : Word
  bitcnt : BitVec 6
  bytebuf : Word
  bytecnt : BitVec 3
  deriving DecidableEq, Repr

/-- The nine registers of a state. -/
def State.nine (s : State) : Nine :=
  { gen := s.gen, seeded := s.seeded, bitbuf := s.bitbuf, bitcnt := s.bitcnt, bytebuf := s.bytebuf, bytecnt := s.bytecnt }

/-- The fields of the model's own that hold the host's inputs and its record: no command touches them. -/
def State.SameHostSide (s t : State) : Prop :=
  t.entropy = s.entropy ∧ t.held = s.held ∧ t.edges = s.edges ∧ t.received = s.received ∧ t.resets = s.resets

/-- The words before a step, computed from the words after it by the formulas of R72. -/
def Gen.back (g : Gen) : Gen :=
  let u := g.w ^^^ (g.z ^^^ (g.z >>> 19))
  let t := u ^^^ (u >>> 8) ^^^ (u >>> 16) ^^^ (u >>> 24)
  { x := t ^^^ (t <<< 11) ^^^ (t <<< 22), y := g.x, z := g.y, w := g.z }

/-- How many bits of `data` the result of a command can occupy (R57, with the ranges of R100 to R125). -/
def resultBits : Instr → Nat
  | .seed _ => 0
  | .seedDefault => 0
  | .next => 31
  | .nextU _ => 31
  | .nextLU _ _ => 32
  | .nextUint => 32
  | .nextInt => 31
  | .nextDouble => 62
  | .nextDoubleNZ => 62
  | .nextFloat => 30
  | .nextBool => 1
  | .nextByte => 8
  | .nextBytes _ => 0

/-- R132 for one command: while `seeded = 0` it is refused and changes no register. -/
def RefusedUnseeded (i : Instr) : Prop :=
  ∀ s : State, s.seeded = false →
    exec i s = .next { s with rsp := some { status := .errNotSeeded, data := 0, bytes := [] } }

/-- The opcode alone, with any operand fields, is the command (R53, R54). -/
def OpcodeOf (op : Byte) (i : Instr) : Prop := ∀ a b : Word, decode (commandWord op a b) = .ok i

/-- A list of commands executed one after another: their responses in order and the last state, if none of them stops. -/
def execTrace : List Instr → State → Option (List Response × State)
  | [], s => some ([], s)
  | i :: is, s =>
    match exec i s with
    | .next t =>
      match t.rsp, execTrace is t with
      | some r, some (rs, u) => some (r :: rs, u)
      | _, _ => none
    | _ => none

/-- The same, each command accepted with its own value on the `entropy` input (R82, U3: not constant between commands). -/
def portTrace : List (DWord × Instr) → State → Option (List Response × State)
  | [], s => some ([], s)
  | (entropy, i) :: is, s =>
    match exec i { s with entropy := entropy } with
    | .next t =>
      match t.rsp, portTrace is t with
      | some r, some (rs, u) => some (r :: rs, u)
      | _, _ => none
    | .fault _ => none
    | .refused _ => none

/-- What a host can tell of a trace, with the nine registers at its end. -/
def observed (p : Option (List Response × State)) : Option (List Response × Nine) := p.map fun q => (q.1, q.2.nine)

/-- R161: `k` is the number of words the command consumes from `s` when it ends `OK`. -/
def WordsConsumed (i : Instr) (s : State) (k : Nat) : Prop :=
  match i with
  | .seed _ => k = 0
  | .seedDefault => k = 0
  | .next => k = 1
  | .nextU upper => ∃ rejected, s.gen.FirstBelow (boundedLimit upper.toNat) rejected ∧ k = rejected + 1
  | .nextLU lower upper => ∃ rejected, s.gen.FirstBelow (boundedLimit (upper - lower).toNat) rejected ∧ k = rejected + 1
  | .nextUint => k = 1
  | .nextInt => k = 1
  | .nextDouble => k = 2
  | .nextDoubleNZ => ∃ zeros, s.gen.FirstNonZero zeros ∧ k = 2 * zeros + 2
  | .nextFloat => k = 1
  | .nextBool => k = if s.bitcnt = 0 then 1 else 0
  | .nextByte => k = if s.bytecnt = 0 then 1 else 0
  | .nextBytes len => k = (len + 3) / 4

/-- The command word that the block must see again at the next edge unless it is withdrawn: the one presented at this edge
and not accepted (R30, log entry 6). -/
def stillPresented (e : Edge) : Option CmdWord := if e.cmdValid = true then some e.cmd else none

end Sys2Proof.Machine

open Sys2Proof Sys2Proof.Machine

/-! ## Encoding -/

/-- R50 to R52, R55: every well-formed command is read back from its canonical encoding, with every operand. -/
def Obligations.DecodeOfEncodeIsTheInstruction : Prop :=
  ∀ i : Instr, i.wellFormed = true → decode (encode i) = .ok i

/-- R51 to R53: what the decoder reads is well-formed, has the word's opcode, and its canonical encoding has the word's
operand fields where its format uses them and 0 elsewhere. -/
def Obligations.DecodedFieldsAreTheWordsFields : Prop :=
  ∀ (c : CmdWord) (i : Instr), decode c = .ok i →
    i.wellFormed = true ∧
    encode i = commandWord (opField c) (if (format i).usesA then aField c else 0)
      (if (format i).usesB then bField c else 0)

/-- R54: two words with the same opcode that agree on the fields the opcode's format uses decode alike, and the block does
the same with both; the canonical encoding has every unused field 0. -/
def Obligations.UnusedOperandFieldsAreIgnored : Prop :=
  (∀ c c' : CmdWord, opField c = opField c' →
    (∀ i, decode c = .ok i → ((format i).usesA = true → aField c = aField c') ∧
      ((format i).usesB = true → bField c = bField c')) →
    decode c = decode c' ∧ ∀ s, accept c s = accept c' s) ∧
  ∀ i : Instr, ((format i).usesA = false → aField (encode i) = 0) ∧ ((format i).usesB = false → bField (encode i) = 0)

/-- R52, with the opcodes of R55: each opcode with any operand fields is its command, its operands read from the fields as
R52 says, nothing scaled, shifted or split. -/
def Obligations.OpcodesAndOperandsAreReadAsTheSpecSays : Prop :=
  ∀ a b : Word,
    decode (commandWord 0x01#8 a b) = .ok (.seed (BitVec.ofNat 64 (a.toNat * 2 ^ 32 + b.toNat))) ∧
    decode (commandWord 0x02#8 a b) = .ok .seedDefault ∧
    decode (commandWord 0x10#8 a b) = .ok .next ∧
    decode (commandWord 0x11#8 a b) = .ok (.nextU a.toInt) ∧
    decode (commandWord 0x12#8 a b) = .ok (.nextLU a.toInt b.toInt) ∧
    decode (commandWord 0x13#8 a b) = .ok .nextUint ∧
    decode (commandWord 0x14#8 a b) = .ok .nextInt ∧
    decode (commandWord 0x15#8 a b) = .ok .nextDouble ∧
    decode (commandWord 0x16#8 a b) = .ok .nextDoubleNZ ∧
    decode (commandWord 0x17#8 a b) = .ok .nextFloat ∧
    decode (commandWord 0x18#8 a b) = .ok .nextBool ∧
    decode (commandWord 0x19#8 a b) = .ok .nextByte ∧
    decode (commandWord 0x1A#8 a b) = .ok (.nextBytes a.toNat)

/-- R56, R133: the reserved opcodes are exactly `0x00`, `0x03` to `0x0F` and `0x1B` to `0xFF`; a word with one of them,
accepted in any state whatever its operands, is answered `ERR_ILLEGAL_CMD` with data 0, and changes no register. -/
def Obligations.ReservedOpcodesAreIllegal : Prop :=
  ∀ (op : Byte) (a b : Word),
    ((∀ i, decode (commandWord op a b) ≠ .ok i) ↔
      op.toNat = 0 ∨ (3 ≤ op.toNat ∧ op.toNat ≤ 15) ∨ 27 ≤ op.toNat) ∧
    ((∀ i, decode (commandWord op a b) ≠ .ok i) → ∀ (s : State) (e : Edge) (rest : List Edge),
      s.Accepts e rest → e.cmd = commandWord op a b →
      step s = .next { s with
        edges := rest, entropy := e.entropy, held := none
        rsp := some { status := .errIllegalCmd, data := 0, bytes := [] } })

/-- 95_test_vectors.md sections 5 and 7: words of the spec decode to the commands it names. -/
def Obligations.SpecWordsDecodeAsTheSpecSays : Prop :=
  decode 0x010000000000000001#72 = .ok (.seed 1) ∧
  decode 0x02FFFFFFFFFFFFFFFF#72 = .ok .seedDefault ∧
  decode 0x110000000AFFFFFFFF#72 = .ok (.nextU 10) ∧
  decode 0x12FFFFFFFB00000005#72 = .ok (.nextLU (-5) 5) ∧
  decode 0x13DEADBEEFCAFEF00D#72 = .ok .nextUint ∧
  decode 0x1A0000000712345678#72 = .ok (.nextBytes 7) ∧
  decode 0x000000000000000000#72 = .error (.reservedOpcode 0)

/-- R60: a command the assembler accepts is well-formed, and the word it writes decodes to it. -/
def Obligations.AssembledCommandsDecodeBack : Prop :=
  ∀ (text : List Char) (i : Instr), Asm.parseLine text = some [.command i] →
    i.wellFormed = true ∧ decode (encode i) = .ok i

/-! ## The step unit -/

/-- R71: the step is linear over GF(2), word by word. -/
def Obligations.StepIsLinear : Prop :=
  ∀ g h : Gen,
    Gen.step { x := g.x ^^^ h.x, y := g.y ^^^ h.y, z := g.z ^^^ h.z, w := g.w ^^^ h.w } =
      { x := g.step.x ^^^ h.step.x, y := g.step.y ^^^ h.step.y, z := g.step.z ^^^ h.step.z, w := g.step.w ^^^ h.step.w }

/-- R72: the step is a bijection on all states, with the inverse the rule gives. -/
def Obligations.StepIsABijectionWithTheSpecsInverse : Prop :=
  Function.Bijective Gen.step ∧ ∀ g : Gen, g.step.back = g ∧ g.back.step = g

/-- R73: the all-zero state is a fixed point that returns the raw word 0, and a non-zero state never reaches it. -/
def Obligations.ZeroStateIsAnUnreachableFixedPoint : Prop :=
  Gen.zero.step = Gen.zero ∧ Gen.zero.raw 0 = 0 ∧
  ∀ g : Gen, g ≠ Gen.zero → g.step ≠ Gen.zero ∧ ∀ k, g.advance k ≠ Gen.zero

/-- R74: from any non-zero state, `2^128 - 1` steps return to it and no smaller positive number of steps does, and every
non-zero state is visited on the way: one cycle. -/
def Obligations.NonZeroStatesFormOneFullCycle : Prop :=
  ∀ g : Gen, g ≠ Gen.zero →
    g.advance (2 ^ 128 - 1) = g ∧
    (∀ k, 0 < k → k < 2 ^ 128 - 1 → g.advance k ≠ g) ∧
    ∀ h : Gen, h ≠ Gen.zero → ∃ k, k < 2 ^ 128 - 1 ∧ g.advance k = h

/-- R75: over one full period every non-zero word is returned exactly `2^96` times, and the word 0 once less. -/
def Obligations.NonZeroRawWordsAreEquallyOftenAndZeroOnceLess : Prop :=
  ∀ g : Gen, g ≠ Gen.zero → ∀ v : Word,
    ((Finset.range (2 ^ 128 - 1)).filter fun k => g.raw k = v).card = if v = 0 then 2 ^ 96 - 1 else 2 ^ 96

/-- R76: after four or more steps the state is the last four raw words, oldest in `x`, and every later raw word is the
stated function of the four before it. -/
def Obligations.StateIsTheLastFourRawWords : Prop :=
  ∀ (g : Gen) (k : Nat),
    g.advance (k + 4) = { x := g.raw k, y := g.raw (k + 1), z := g.raw (k + 2), w := g.raw (k + 3) } ∧
    g.raw (k + 4) =
      (g.raw (k + 3) ^^^ g.raw (k + 3) >>> 19) ^^^
        ((g.raw k ^^^ g.raw k <<< 11) ^^^ (g.raw k ^^^ g.raw k <<< 11) >>> 8)

/-! ## Seeding -/

/-- R83: `SEED` loads the four words its 64-bit operand gives, sets `seeded`, empties both caches, and
answers `OK` with no value, in every state. -/
def Obligations.SeedLoadsTheExpandedSeed : Prop :=
  (∀ (v : DWord) (s : State),
    exec (.seed v) s = .next { s with
      gen := { x := (if v = 0 then 0x7F4A7C15#32 else v.extractLsb' 0 32)
               y := (if v = 0 then 0xAC00F67E#32 else v.extractLsb' 32 32 ^^^ 0x32378FC7#32)
               z := 0xD55F8767#32
               w := 0x104AA1AD#32 }
      seeded := true, bitbuf := 0, bitcnt := 0, bytebuf := 0, bytecnt := 0
      rsp := some { status := .ok, data := 0, bytes := [] } }) ∧
  ∀ a b : Word, decode (commandWord 0x01#8 a b) = .ok (.seed (BitVec.ofNat 64 (a.toNat * 2 ^ 32 + b.toNat)))

/-- R84, R82: `SEED_DEFAULT`, accepted at an edge, does what `SEED` does with the value on `entropy` at that edge, for every
such value, whatever the operand fields hold; executed alone it uses the value State holds for the port. -/
def Obligations.SeedDefaultUsesTheEntropyPort : Prop :=
  (∀ s : State, ∃ t, exec .seedDefault s = .next t ∧ exec (.seed s.entropy) s = .next t) ∧
  ∀ (s : State) (e : Edge) (rest : List Edge) (a b : Word),
    s.Accepts e rest → e.cmd = commandWord 0x02#8 a b → step s = exec (.seed e.entropy) (s.atAccept e rest)

/-- R81: no seed loads the all-zero state, and two seeds load the same state only if they are equal or are 0 and the
constant 0 is remapped to. -/
def Obligations.SeedsAreNonZeroAndDistinct : Prop :=
  ∀ u v : DWord, seedWords u ≠ Gen.zero ∧
    (seedWords u = seedWords v ↔
      u = v ∨ (u = 0 ∧ v = 0x9E3779B97F4A7C15#64) ∨ (u = 0x9E3779B97F4A7C15#64 ∧ v = 0))

/-- R85, R82, U3: after a seeding command with the same seed, the responses to any later commands, each with its own value on
`entropy`, and the nine registers, are the same whatever state the block was in before; `SEED_DEFAULT` is `SEED` of the
value on `entropy`; and where the commands are well-formed every one of them is answered. -/
def Obligations.SeedDeterminesEverythingAfterIt : Prop :=
  ∀ (v e e' : DWord) (is : List (DWord × Instr)) (s s' : State),
    observed (portTrace ((e, .seed v) :: is) s) = observed (portTrace ((e', .seed v) :: is) s') ∧
    observed (portTrace ((v, .seedDefault) :: is) s) = observed (portTrace ((e', .seed v) :: is) s') ∧
    ((∀ p ∈ is, p.2.wellFormed = true) →
      ∃ rs t, portTrace ((e, .seed v) :: is) s = some (rs, t) ∧ rs.length = is.length + 1 ∧ t.seeded = true)

/-- R22: `seeded` is set only by an accepted seeding command and cleared only by a reset edge. -/
def Obligations.SeededChangesOnlyBySeedingAndReset : Prop :=
  ∀ s t : State, step s = .next t →
    (s.seeded = false → t.seeded = true →
      ∃ e rest, s.Accepts e rest ∧ ((∃ v, decode e.cmd = .ok (.seed v)) ∨ decode e.cmd = .ok .seedDefault)) ∧
    (s.seeded = true → t.seeded = false → ∃ e rest, s.edges = e :: rest ∧ e.rst = true)

/-! ## The bounded draw -/

/-- R90, R91, R95: the limit is the largest multiple of `n` that does not exceed `2^32`, lies above `2^31`, and the 32-bit
identities of R91 hold. -/
def Obligations.LimitIsTheLargestMultiple : Prop :=
  ∀ n : Nat, 1 ≤ n → n ≤ 2 ^ 32 - 1 →
    n ∣ boundedLimit n ∧ boundedLimit n ≤ 2 ^ 32 ∧ 2 ^ 32 < boundedLimit n + n ∧ 2 ^ 31 < boundedLimit n ∧
    2 ^ 32 % n = (2 ^ 32 - n) % n ∧
    ∀ r : Word, r.toNat < boundedLimit n ↔ r.toNat ≤ 0xFFFFFFFF - 2 ^ 32 % n

/-- R92: the accepted words fall into the `n` residue classes in equal numbers. -/
def Obligations.AcceptedWordsAreUnbiased : Prop :=
  ∀ n : Nat, 1 ≤ n → n ≤ 2 ^ 32 - 1 → ∀ v, v < n →
    ((Finset.range (boundedLimit n)).filter fun r => r % n = v).card = boundedLimit n / n

/-- R90, R96: from every state the loop ends. It rejects at most 128 words (sharper than R96's `2^128 - 2`), and answers the
first word below the limit modulo `n`, the generator advanced past exactly the words it drew. -/
def Obligations.BoundedDrawEnds : Prop :=
  ∀ (n : Nat) (g : Gen), 1 ≤ n → n ≤ 2 ^ 32 - 1 →
    ∃ k, k ≤ 128 ∧ g.FirstBelow (boundedLimit n) k ∧
      bounded n g = some ((g.raw k).toNat % n, g.advance (k + 1))

/-! ## The drawing commands -/

/-- R132: every drawing command is refused with `ERR_NOT_SEEDED` while `seeded = 0`, and changes no register. -/
def Obligations.DrawBeforeSeedingIsRefused : Prop :=
  ∀ (i : Instr) (s : State), draws i = true → s.seeded = false →
    exec i s = .next { s with rsp := some { status := .errNotSeeded, data := 0, bytes := [] } }

/-- R131: once seeded, `NEXT_U` with `upper <= 0` and `NEXT_LU` with `upper <= lower` answer `ERR_INVALID_RANGE` and change
no register; the operands are the fields read as two's complement, where `upper <= 0` is `a = 0` or `a[31] = 1`. -/
def Obligations.EmptyRangesAreRefused : Prop :=
  (∀ (i : Instr) (s : State), badRange i → s.seeded = true →
    exec i s = .next { s with rsp := some { status := .errInvalidRange, data := 0, bytes := [] } }) ∧
  ∀ a b : Word,
    decode (commandWord 0x11#8 a b) = .ok (.nextU a.toInt) ∧
    decode (commandWord 0x12#8 a b) = .ok (.nextLU a.toInt b.toInt) ∧
    (a.toInt ≤ 0 ↔ a = 0 ∨ a.getLsbD 31 = true)

/-- R100, R104: `NEXT` and `NEXT_INT` both consume one word and answer its bits 30:0. -/
def Obligations.NextAndNextIntMaskTheSign : Prop :=
  OpcodeOf 0x10#8 .next ∧ OpcodeOf 0x14#8 .nextInt ∧ RefusedUnseeded .next ∧ RefusedUnseeded .nextInt ∧
  ∀ (i : Instr) (s : State), i = .next ∨ i = .nextInt → s.seeded = true →
    exec i s = .next { s with
      gen := s.gen.step
      rsp := some { status := .ok, data := BitVec.ofNat 64 ((s.gen.raw 0).toNat % 2 ^ 31), bytes := [] } }

/-- R103: `NEXT_UINT` consumes one word and answers it unmodified. -/
def Obligations.NextUintIsTheRawWord : Prop :=
  OpcodeOf 0x13#8 .nextUint ∧ RefusedUnseeded .nextUint ∧
  ∀ s : State, s.seeded = true →
    exec .nextUint s = .next { s with
      gen := s.gen.step
      rsp := some { status := .ok, data := BitVec.ofNat 64 (s.gen.raw 0).toNat, bytes := [] } }

/-- R101: `NEXT_U upper`, unseeded, is refused; with `upper <= 0` it is an invalid range; with `upper > 0` it rejects the words at or above the limit, answers the first other word modulo
`upper`, a value in `[0, upper)`, and consumes one word more than it rejects. -/
def Obligations.NextUAnswersTheFirstAcceptedWordModuloUpper : Prop :=
  (∀ a b : Word, decode (commandWord 0x11#8 a b) = .ok (.nextU a.toInt)) ∧
  (∀ upper, RefusedUnseeded (.nextU upper)) ∧
  (∀ (upper : Int) (s : State), s.seeded = true → upper ≤ 0 →
    exec (.nextU upper) s = .next { s with rsp := some { status := .errInvalidRange, data := 0, bytes := [] } }) ∧
  ∀ (upper : Int) (s : State), s.seeded = true → 0 < upper → upper ≤ 2 ^ 31 - 1 →
    ∃ k, s.gen.FirstBelow (boundedLimit upper.toNat) k ∧
      exec (.nextU upper) s = .next { s with
        gen := s.gen.advance (k + 1)
        rsp := some { status := .ok, data := BitVec.ofNat 64 ((s.gen.raw k).toNat % upper.toNat), bytes := [] } } ∧
      (((s.gen.raw k).toNat % upper.toNat : Nat) : Int) < upper

/-- R102: `NEXT_LU lower, upper`, unseeded, is refused; with `upper <= lower` it is an invalid range; with `lower < upper`
it answers `lower` plus the first word below the limit modulo the width, a value in `[lower, upper)`, as its two's
complement pattern in bits 31:0 with bits 63:32 zero, and consumes one word more than it rejects. `lower = 0` behaves exactly as `NEXT_U upper`. -/
def Obligations.NextLUAnswersLowerPlusTheFirstAcceptedWordModuloTheWidth : Prop :=
  (∀ a b : Word, decode (commandWord 0x12#8 a b) = .ok (.nextLU a.toInt b.toInt)) ∧
  (∀ lower upper, RefusedUnseeded (.nextLU lower upper)) ∧
  (∀ (lower upper : Int) (s : State), s.seeded = true → upper ≤ lower →
    exec (.nextLU lower upper) s = .next { s with rsp := some { status := .errInvalidRange, data := 0, bytes := [] } }) ∧
  (∀ upper s, isInt32 upper = true → exec (.nextLU 0 upper) s = exec (.nextU upper) s) ∧
  ∀ (lower upper : Int) (s : State), s.seeded = true →
    -2 ^ 31 ≤ lower → lower < upper → upper ≤ 2 ^ 31 - 1 →
    ∃ (k : Nat) (res : Int) (data : DWord),
      s.gen.FirstBelow (boundedLimit (upper - lower).toNat) k ∧
      res = lower + ((s.gen.raw k).toNat % (upper - lower).toNat : Nat) ∧ lower ≤ res ∧ res < upper ∧
      data.extractLsb' 32 32 = 0#32 ∧ (data.extractLsb' 0 32).toInt = res ∧
      exec (.nextLU lower upper) s = .next { s with
        gen := s.gen.advance (k + 1)
        rsp := some { status := .ok, data := data, bytes := [] } }

/-- R105: `NEXT_BOOL` with an empty cache draws one word, answers its bit 0 and caches the other 31; otherwise it answers
bit 0 of the cache and draws nothing. -/
def Obligations.NextBoolTakesOneBit : Prop :=
  OpcodeOf 0x18#8 .nextBool ∧ RefusedUnseeded .nextBool ∧
  ∀ s : State, s.seeded = true →
    (s.bitcnt = 0 → exec .nextBool s = .next { s with
      gen := s.gen.step, bitbuf := s.gen.raw 0 >>> 1, bitcnt := 31
      rsp := some { status := .ok, data := BitVec.ofNat 64 ((s.gen.raw 0).toNat % 2), bytes := [] } }) ∧
    (s.bitcnt ≠ 0 → exec .nextBool s = .next { s with
      bitbuf := s.bitbuf >>> 1, bitcnt := s.bitcnt - 1
      rsp := some { status := .ok, data := BitVec.ofNat 64 (s.bitbuf.toNat % 2), bytes := [] } })

/-- R105: one raw word serves 32 consecutive `NEXT_BOOL` commands, bit 0 first, bit 31 last. -/
def Obligations.OneWordServesThirtyTwoBooleans : Prop :=
  ∀ s : State, s.seeded = true → s.bitcnt = 0 →
    ∃ t, execTrace (List.replicate 32 .nextBool) s = some
        ((List.range 32).map fun k =>
          { status := .ok, data := (if (s.gen.raw 0).getLsbD k then 1 else 0), bytes := [] }, t) ∧
      t.nine = { s.nine with gen := s.gen.step, bitbuf := 0, bitcnt := 0 }

/-- R106: `NEXT_BYTE` with an empty cache draws one word, answers its bits 7:0 and caches the other three bytes; otherwise
it answers bits 7:0 of the cache and draws nothing. -/
def Obligations.NextByteTakesOneByte : Prop :=
  OpcodeOf 0x19#8 .nextByte ∧ RefusedUnseeded .nextByte ∧
  ∀ s : State, s.seeded = true →
    (s.bytecnt = 0 → exec .nextByte s = .next { s with
      gen := s.gen.step, bytebuf := s.gen.raw 0 >>> 8, bytecnt := 3
      rsp := some { status := .ok, data := BitVec.ofNat 64 ((s.gen.raw 0).toNat % 256), bytes := [] } }) ∧
    (s.bytecnt ≠ 0 → exec .nextByte s = .next { s with
      bytebuf := s.bytebuf >>> 8, bytecnt := s.bytecnt - 1
      rsp := some { status := .ok, data := BitVec.ofNat 64 (s.bytebuf.toNat % 256), bytes := [] } })

/-- R107, R41: `NEXT_BYTES len` answers `len` bytes, byte `i` being bits `8j+7 : 8j` of raw word `i div 4` with
`j = i mod 4`, consumes `ceil(len / 4)` words, and touches neither cache. -/
def Obligations.NextBytesEmitsTheWordsInOrder : Prop :=
  (∀ a b : Word, decode (commandWord 0x1A#8 a b) = .ok (.nextBytes a.toNat)) ∧
  (∀ len, RefusedUnseeded (.nextBytes len)) ∧
  ∀ (len : Nat) (s : State), s.seeded = true → len ≤ 2 ^ 32 - 1 →
    ∃ bytes : List Byte, bytes.length = len ∧
      (∀ i (h : i < bytes.length), bytes[i] = (s.gen.raw (i / 4)).extractLsb' (8 * (i % 4)) 8) ∧
      exec (.nextBytes len) s = .next { s with
        gen := s.gen.advance ((len + 3) / 4)
        rsp := some { status := .ok, data := 0, bytes := bytes } }

/-- R107: `NEXT_BYTES 4k` emits the same bytes as `4k` `NEXT_BYTE` commands issued with an empty byte cache, and leaves the
generator in the same state. -/
def Obligations.NextBytesEqualsNextByteRepeated : Prop :=
  ∀ (k : Nat) (s : State), s.seeded = true → s.bytecnt = 0 → s.bytebuf = 0 → 4 * k ≤ 2 ^ 32 - 1 →
    ∃ (rs : List Response) (t u : State) (r : Response),
      execTrace (List.replicate (4 * k) .nextByte) s = some (rs, t) ∧
      exec (.nextBytes (4 * k)) s = .next u ∧ u.rsp = some r ∧
      rs = r.bytes.map (fun b => { status := .ok, data := b.setWidth 64, bytes := [] }) ∧ t.nine = u.nine

/-! ## Floating point -/

/-- R120: the pattern of `F64(m)` has sign 0, a biased exponent in `[970, 1022]`, and its binary64 value
`(2^52 + f) * 2^(e - 1075)` is `m / 2^53` exactly (written without fractions); `F64(0)` is all zero; `F64` is monotonic. -/
def Obligations.F64IsExact : Prop :=
  f64 0 = 0 ∧
  (∀ m : Nat, 1 ≤ m → m < 2 ^ 53 →
    (f64 m).getLsbD 63 = false ∧
    970 ≤ ((f64 m).extractLsb' 52 11).toNat ∧ ((f64 m).extractLsb' 52 11).toNat ≤ 1022 ∧
    (2 ^ 52 + ((f64 m).extractLsb' 0 52).toNat) * 2 ^ ((f64 m).extractLsb' 52 11).toNat = m * 2 ^ 1022) ∧
  ∀ m m' : Nat, m < m' → m' < 2 ^ 53 → (f64 m).toNat < (f64 m').toNat

/-- R124: the same for `F32(m)`, whose value is `m / 2^24`, with biased exponent in `[103, 126]`. -/
def Obligations.F32IsExact : Prop :=
  f32 0 = 0 ∧
  (∀ m : Nat, 1 ≤ m → m < 2 ^ 24 →
    (f32 m).getLsbD 31 = false ∧
    103 ≤ ((f32 m).extractLsb' 23 8).toNat ∧ ((f32 m).extractLsb' 23 8).toNat ≤ 126 ∧
    (2 ^ 23 + ((f32 m).extractLsb' 0 23).toNat) * 2 ^ ((f32 m).extractLsb' 23 8).toNat = m * 2 ^ 126) ∧
  ∀ m m' : Nat, m < m' → m' < 2 ^ 24 → (f32 m).toNat < (f32 m').toNat

/-- R122, R121: `NEXT_DOUBLE` consumes two words and answers `F64` of the 27 high bits of the first above the 26 high bits
of the second. -/
def Obligations.NextDoubleJoinsTwoWords : Prop :=
  OpcodeOf 0x15#8 .nextDouble ∧ RefusedUnseeded .nextDouble ∧
  ∀ s : State, s.seeded = true →
    ((s.gen.raw 0).toNat / 2 ^ 5) * 2 ^ 26 + (s.gen.raw 1).toNat / 2 ^ 6 < 2 ^ 53 ∧
    exec .nextDouble s = .next { s with
      gen := s.gen.step.step
      rsp := some
        { status := .ok
          data := f64 (((s.gen.raw 0).toNat / 2 ^ 5) * 2 ^ 26 + (s.gen.raw 1).toNat / 2 ^ 6)
          bytes := [] } }

/-- R123: from every non-zero state `NEXT_DOUBLE_NZ` ends, after at most three zero attempts (the rule gives no number);
it answers `F64` of the first non-zero attempt, which is not zero, and consumes two words for each attempt. -/
def Obligations.NextDoubleNZEndsNonZero : Prop :=
  OpcodeOf 0x16#8 .nextDoubleNZ ∧ RefusedUnseeded .nextDoubleNZ ∧
  ∀ s : State, s.seeded = true → s.gen ≠ Gen.zero →
    ∃ k, k ≤ 3 ∧ s.gen.FirstNonZero k ∧
      exec .nextDoubleNZ s = .next { s with
        gen := s.gen.advance (2 * k + 2)
        rsp := some { status := .ok, data := f64 (s.gen.attempt k), bytes := [] } } ∧
      f64 (s.gen.attempt k) ≠ 0

/-- R125: `NEXT_FLOAT` consumes one word and answers `F32` of its 24 high bits. -/
def Obligations.NextFloatUsesTheHighBits : Prop :=
  OpcodeOf 0x17#8 .nextFloat ∧ RefusedUnseeded .nextFloat ∧
  ∀ s : State, s.seeded = true →
    (s.gen.raw 0).toNat / 2 ^ 8 < 2 ^ 24 ∧
    exec .nextFloat s = .next { s with
      gen := s.gen.step
      rsp := some
        { status := .ok, data := BitVec.ofNat 64 (f32 ((s.gen.raw 0).toNat / 2 ^ 8)).toNat, bytes := [] } }

/-! ## Whole-machine rules -/

/-- R134, R130: in a state that meets R21 every command word is answered, and with exactly one status: `IllegalCmd` before
`NotSeeded` before `InvalidRange` before `OK`. -/
def Obligations.EveryWordIsAnsweredWithItsStatus : Prop :=
  ∀ (c : CmdWord) (s : State), s.NonDegenerate →
    ∃ t r, accept c s = .next t ∧ t.rsp = some r ∧
      ((∀ i, decode c ≠ .ok i) → r.status = .errIllegalCmd) ∧
      ∀ i, decode c = .ok i →
        (draws i = true ∧ s.seeded = false → r.status = .errNotSeeded) ∧
        (¬(draws i = true ∧ s.seeded = false) → badRange i → r.status = .errInvalidRange) ∧
        (¬(draws i = true ∧ s.seeded = false) → ¬badRange i → r.status = .ok)

/-- R135: a command that is answered with an error changes nothing at all but the response. -/
def Obligations.ErrorsChangeNothing : Prop :=
  ∀ (c : CmdWord) (s t : State) (r : Response), accept c s = .next t → t.rsp = some r → r.status ≠ .ok →
    t = { s with rsp := some { status := r.status, data := 0, bytes := [] } }

/-- R57, R58: every accepted word is answered by one response; an error has data 0 and no bytes; an `OK` has its result
right-aligned, zeros above the bits the command can fill, and bytes only from `NEXT_BYTES`, as many as it asks. -/
def Obligations.ResponsesHaveTheirLayout : Prop :=
  ∀ (c : CmdWord) (s t : State), accept c s = .next t →
    ∃ r, t.rsp = some r ∧ r.WellFormed ∧
      ∀ i, decode c = .ok i →
        r.data.toNat < 2 ^ resultBits i ∧
        (∀ len, i = .nextBytes len → r.status = .ok → r.bytes.length = len) ∧
        ((∀ len, i ≠ .nextBytes len) → r.bytes = [])

/-- R33 (the table of read and write sets) and R161: no command touches the host's side; only the seeding commands write
`seeded`, only they and `NEXT_BOOL` the Boolean cache, only they and `NEXT_BYTE` the byte cache; a drawing command that ends
`OK` advances the generator words by exactly the words it consumes; a command that ends in an error writes nothing. -/
def Obligations.CommandsWriteOnlyTheirRegisters : Prop :=
  ∀ (i : Instr) (s t : State), exec i s = .next t →
    s.SameHostSide t ∧
    (draws i = true → t.seeded = s.seeded) ∧
    (draws i = true → i ≠ .nextBool → t.bitbuf = s.bitbuf ∧ t.bitcnt = s.bitcnt) ∧
    (draws i = true → i ≠ .nextByte → t.bytebuf = s.bytebuf ∧ t.bytecnt = s.bytecnt) ∧
    ∃ r, t.rsp = some r ∧
      (r.status ≠ .ok → t.nine = s.nine) ∧
      (r.status = .ok → draws i = true → ∃ k, WordsConsumed i s k ∧ t.gen = s.gen.advance k)

/-- R33, R150: the state after reset meets the invariant, is ready for a command, presents no beat, and has `seeded` and the
caches at the values of R33. -/
def Obligations.ResetMeetsTheInvariant : Prop :=
  State.reset.Inv ∧ cmdReady false State.reset = true ∧ rspBeat false State.reset = none ∧
  State.reset.seeded = false ∧ State.reset.bitbuf = 0 ∧ State.reset.bitcnt = 0 ∧
  State.reset.bytebuf = 0 ∧ State.reset.bytecnt = 0

/-- R21, R25, R57: every step keeps the invariant: never all-zero while seeded, each cache below two to the power of what
its count covers, counts at most 32 and 4, and an error response with data 0 and no bytes. -/
def Obligations.EveryStepKeepsTheInvariant : Prop :=
  ∀ s t : State, s.Inv → step s = .next t → t.Inv

/-- R96, R123, R135, R152 and U7, U9: from a state that meets the invariant a step never faults, and it refuses only where
the host presents a command word before the first reset event, or another command word than the one it presented,
unaccepted, at the edge before. -/
def Obligations.StepsNeverFaultAndRefuseOnlyTheHost : Prop :=
  ∀ s : State, s.Inv →
    (∀ f, step s ≠ .fault f) ∧
    ∀ r, step s = .refused r →
      ∃ e rest, s.edges = e :: rest ∧ e.rst = false ∧ e.cmdValid = true ∧
        ((r = .neverReset ∧ s.resets = 0) ∨ (r = .unstableCommand ∧ ∃ c, s.held = some c ∧ e.cmd ≠ c))

/-- R152: before the first reset event the step refuses a command word the host presents; a reset event counts, the state
after reset has had one, and no step loses the count. -/
def Obligations.CommandBeforeTheFirstResetIsRefused : Prop :=
  (∀ (s : State) (e : Edge) (rest : List Edge), s.resets = 0 → s.edges = e :: rest → e.rst = false → e.cmdValid = true →
    step s = .refused .neverReset) ∧
  (∀ (s : State) (e : Edge) (rest : List Edge), s.edges = e :: rest → e.rst = true →
    ∃ t : State, step s = .next t ∧ t.resets ≠ 0) ∧
  State.reset.resets ≠ 0 ∧ ∀ s t : State, step s = .next t → s.resets ≠ 0 → t.resets ≠ 0

/-! ## Ports -/

/-- R30, R53: when the host presents a command word at the next edge to a block that accepts it, and the word decodes to
`i`, the step is `exec i` in the state in which the inputs of that edge are sampled and the edge is consumed. -/
def Obligations.StepRunsTheDecodedInstruction : Prop :=
  ∀ (s : State) (e : Edge) (rest : List Edge) (i : Instr), s.Accepts e rest → decode e.cmd = .ok i →
    i.wellFormed = true ∧ step s = exec i (s.atAccept e rest)

/-- R58, R57: the host takes the beats of an outstanding response at as many edges as it has beats: it gets every data beat
in index order, each with `rsp_last = 0`, status 0 and one byte, then the completion beat; no register changes, and the
block is ready again. -/
def Obligations.ResponseIsDeliveredBeatByBeat : Prop :=
  ∀ (s : State) (r : Response) (es rest : List Edge), s.rsp = some r → s.edges = es ++ rest →
    es.length = r.bytes.length + 1 → (∀ e ∈ es, e.rst = false ∧ e.cmdValid = false ∧ e.rspReady = true) →
    ∃ t : State, Host.Core.run Sys2Proof.core (r.bytes.length + 1) s = .next t ∧
      t.received = s.received ++
        (r.bytes.map (fun b => { last := false, status := 0, data := b.setWidth 64 }) ++
          [{ last := true, status := r.status.code, data := r.data }]) ∧
      t.rsp = none ∧ t.nine = s.nine ∧ t.edges = rest ∧ cmdReady false t = true

/-- R31, R159: while a response is outstanding the block accepts no command whatever the host presents, and outside reset no
register changes; a beat is delivered exactly where `rsp_ready = 1`, and held otherwise. -/
def Obligations.BusyBlockAcceptsNothing : Prop :=
  ∀ (s t : State) (r : Response) (e : Edge) (rest : List Edge), s.rsp = some r → s.edges = e :: rest → e.rst = false →
    step s = .next t →
      cmdReady e.rst s = false ∧ t.nine = s.nine ∧
      (e.rspReady = false → t.rsp = some r ∧ t.received = s.received) ∧
      (e.rspReady = true → t.rsp = r.afterBeat ∧ t.received = s.received ++ [r.beat])

/-- R30, R154: at an edge outside reset with no response outstanding and no command presented, nothing changes but what the
model itself keeps of the host's inputs: the nine registers, the response port and the record of beats stay. -/
def Obligations.IdleEdgeChangesNothing : Prop :=
  ∀ (s : State) (e : Edge) (rest : List Edge), s.edges = e :: rest → e.rst = false → s.rsp = none → e.cmdValid = false →
    step s = .next { s with edges := rest, entropy := e.entropy, held := none }

/-- U7, R30, R156 (the memory of the word presented before is the model's, log entry 6): outside reset, after a reset event,
the step refuses a command word other than the one presented, unaccepted, at the edge before. That word is remembered
exactly from an edge that presents it in reset or to a busy block; an edge with no response outstanding leaves none, whether
it accepts a command or presents none; a step with no edge left keeps it. -/
def Obligations.UnstableCommandIsRefused : Prop :=
  (∀ (s : State) (e : Edge) (rest : List Edge) (c : CmdWord), s.edges = e :: rest → e.rst = false → e.cmdValid = true →
    s.resets ≠ 0 → s.held = some c → e.cmd ≠ c → step s = .refused .unstableCommand) ∧
  ∀ s t : State, step s = .next t →
    (s.edges = [] → t.held = s.held) ∧
    ∀ (e : Edge) (rest : List Edge), s.edges = e :: rest →
      (e.rst = true → t.held = stillPresented e) ∧
      (e.rst = false → s.rsp ≠ none → t.held = stillPresented e) ∧
      (e.rst = false → s.rsp = none → t.held = none)

/-- R150, R151: at an edge with `rst = 1`, whatever the block was doing, no command is accepted and no beat delivered; the
five registers of R33 are cleared, an outstanding response is abandoned, and the block is then ready. -/
def Obligations.ResetWinsOverEverything : Prop :=
  ∀ (s : State) (e : Edge) (rest : List Edge), s.edges = e :: rest → e.rst = true →
    cmdReady e.rst s = false ∧ rspBeat e.rst s = none ∧
    ∃ t : State, step s = .next t ∧ t.seeded = false ∧ t.bitbuf = 0 ∧ t.bitcnt = 0 ∧ t.bytebuf = 0 ∧ t.bytecnt = 0 ∧
      t.rsp = none ∧ t.received = s.received ∧ t.edges = rest ∧ cmdReady false t = true ∧ rspBeat false t = none
end

