-- ==== Sys2Proof/Laws/Decode.lean ====
section
/-!
SUPPORT. The fields of a command word and the operand readings of R52: what each field of an assembled word is, and that
`signed_32` and the two's complement pattern undo each other.
-/

namespace Sys2Proof

@[simp] theorem opField_commandWord (op : Byte) (a b : Word) : opField (commandWord op a b) = op := by
  unfold opField commandWord
  apply BitVec.eq_of_getLsbD_eq
  intro i hi
  simp only [BitVec.getLsbD_extractLsb', BitVec.getLsbD_append, hi, decide_true, Bool.true_and]
  rw [if_neg (by omega), if_neg (by omega)]
  congr 1; omega

@[simp] theorem aField_commandWord (op : Byte) (a b : Word) : aField (commandWord op a b) = a := by
  unfold aField commandWord
  apply BitVec.eq_of_getLsbD_eq
  intro i hi
  simp only [BitVec.getLsbD_extractLsb', BitVec.getLsbD_append, hi, decide_true, Bool.true_and]
  rw [if_neg (by omega), if_pos (by omega)]
  congr 1; omega

@[simp] theorem bField_commandWord (op : Byte) (a b : Word) : bField (commandWord op a b) = b := by
  unfold bField commandWord
  apply BitVec.eq_of_getLsbD_eq
  intro i hi
  simp only [BitVec.getLsbD_extractLsb', BitVec.getLsbD_append, hi, decide_true, Bool.true_and]
  rw [if_pos (by omega)]
  congr 1; omega

theorem signed32_eq_toInt (v : Word) : signed32 v = v.toInt := by
  have := v.isLt
  unfold signed32
  rw [BitVec.toInt_eq_toNat_cond]
  split <;> split <;> omega

theorem isInt32_iff (v : Int) : isInt32 v = true ↔ -2147483648 ≤ v ∧ v ≤ 2147483647 := by
  simp [isInt32]

theorem isUInt32_iff (n : Nat) : isUInt32 n = true ↔ n ≤ 4294967295 := by
  simp [isUInt32]

/-- Reading a word as an Int32 gives an Int32 (R52). -/
theorem isInt32_signed32 (v : Word) : isInt32 (signed32 v) = true := by
  have := v.isLt
  rw [isInt32_iff]
  unfold signed32
  split <;> omega

theorem isUInt32_toNat (v : Word) : isUInt32 v.toNat = true := by
  have := v.isLt
  rw [isUInt32_iff]; omega

/-- The pattern of an Int32, read back. -/
theorem signed32_pattern32 {v : Int} (h : isInt32 v = true) : signed32 (pattern32 v) = v := by
  rw [isInt32_iff] at h
  rw [signed32_eq_toInt, pattern32, BitVec.toInt_ofInt, Int.bmod_eq_of_le] <;> omega

/-- A word's signed reading, written back. -/
theorem pattern32_signed32 (v : Word) : pattern32 (signed32 v) = v := by
  rw [signed32_eq_toInt, pattern32, BitVec.ofInt_toInt]

/-- The two halves of a seed, joined (R52). -/
theorem seedOperand_halves (v : DWord) : seedOperand (v.extractLsb' 32 32) (v.extractLsb' 0 32) = v := by
  unfold seedOperand
  apply BitVec.eq_of_getLsbD_eq
  intro i hi
  rw [BitVec.getLsbD_append]
  simp only [BitVec.getLsbD_extractLsb']
  split
  · simp_all
  · rw [decide_eq_true (by omega), Bool.true_and, show 32 + (i - 32) = i by omega]

theorem seedOperand_high (a b : Word) : (seedOperand a b).extractLsb' 32 32 = a := by
  unfold seedOperand
  apply BitVec.eq_of_getLsbD_eq
  intro i hi
  simp only [BitVec.getLsbD_extractLsb', BitVec.getLsbD_append, hi, decide_true, Bool.true_and]
  rw [if_neg (by omega)]
  congr 1; omega

theorem seedOperand_low (a b : Word) : (seedOperand a b).extractLsb' 0 32 = b := by
  unfold seedOperand
  apply BitVec.eq_of_getLsbD_eq
  intro i hi
  simp only [BitVec.getLsbD_extractLsb', BitVec.getLsbD_append, hi, decide_true, Bool.true_and]
  rw [if_pos (by omega)]
  congr 1; omega

theorem seedOperand_toNat (a b : Word) : (seedOperand a b).toNat = a.toNat * 2 ^ 32 + b.toNat := by
  unfold seedOperand
  rw [BitVec.toNat_append, Nat.shiftLeft_eq, Nat.mul_comm, ← Nat.two_pow_add_eq_or_of_lt b.isLt]

/-- What the decoder answers, one line per opcode (R55). -/
theorem decode_eq (c : CmdWord) : decode c =
    if (opField c).toNat = 0x01 then .ok (.seed (seedOperand (aField c) (bField c)))
    else if (opField c).toNat = 0x02 then .ok .seedDefault
    else if (opField c).toNat = 0x10 then .ok .next
    else if (opField c).toNat = 0x11 then .ok (.nextU (signed32 (aField c)))
    else if (opField c).toNat = 0x12 then .ok (.nextLU (signed32 (aField c)) (signed32 (bField c)))
    else if (opField c).toNat = 0x13 then .ok .nextUint
    else if (opField c).toNat = 0x14 then .ok .nextInt
    else if (opField c).toNat = 0x15 then .ok .nextDouble
    else if (opField c).toNat = 0x16 then .ok .nextDoubleNZ
    else if (opField c).toNat = 0x17 then .ok .nextFloat
    else if (opField c).toNat = 0x18 then .ok .nextBool
    else if (opField c).toNat = 0x19 then .ok .nextByte
    else if (opField c).toNat = 0x1A then .ok (.nextBytes (aField c).toNat)
    else .error (.reservedOpcode (opField c)) := by
  unfold decode
  generalize (opField c).toNat = n
  split <;> simp_all

/-- A word is made of its three fields. -/
theorem commandWord_fields (c : CmdWord) : commandWord (opField c) (aField c) (bField c) = c := by
  unfold commandWord opField aField bField
  apply BitVec.eq_of_getLsbD_eq
  intro i hi
  simp only [BitVec.getLsbD_append, BitVec.getLsbD_extractLsb']
  by_cases h1 : i < 32
  · rw [if_pos h1]; simp [h1]
  · rw [if_neg h1]
    by_cases h2 : i - 32 < 32
    · rw [if_pos h2]; simp [h2]; congr 1; omega
    · rw [if_neg h2, decide_eq_true (by omega), Bool.true_and]; congr 1; omega

/-- Every way a word can decode: its opcode, and the operands read from its fields. -/
theorem decode_ok_cases {c : CmdWord} {i : Instr} (h : decode c = .ok i) :
    opField c = opcode i ∧
    (i = .seed (seedOperand (aField c) (bField c)) ∨ i = .seedDefault ∨ i = .next ∨ i = .nextU (signed32 (aField c)) ∨
      i = .nextLU (signed32 (aField c)) (signed32 (bField c)) ∨ i = .nextUint ∨ i = .nextInt ∨ i = .nextDouble ∨
      i = .nextDoubleNZ ∨ i = .nextFloat ∨ i = .nextBool ∨ i = .nextByte ∨ i = .nextBytes (aField c).toNat) := by
  have key : ∀ n, (opField c).toNat = n → n < 256 → opField c = BitVec.ofNat 8 n := fun n hn hlt => by
    apply BitVec.eq_of_toNat_eq
    rw [BitVec.toNat_ofNat, hn, Nat.mod_eq_of_lt hlt]
  unfold decode at h
  generalize ha : (opField c).toNat = n at h
  split at h <;> simp only [Except.ok.injEq, reduceCtorEq] at h <;> subst h <;> simp [opcode, key _ ha]

end Sys2Proof
end

