-- ==== Sys2Proof/Laws/State.lean ====
section
/-!
SUPPORT. One lemma per field and named update of State, so that no proof unfolds an update; and the same for the
operations that write several fields at once (seeding, reset, the sampling of the inputs).
-/

namespace Sys2Proof.Machine

@[simp] theorem State.withGen_gen (s : State) (g : Gen) : (s.withGen g).gen = g := rfl
@[simp] theorem State.withGen_seeded (s : State) (g : Gen) : (s.withGen g).seeded = s.seeded := rfl
@[simp] theorem State.withGen_bitbuf (s : State) (g : Gen) : (s.withGen g).bitbuf = s.bitbuf := rfl
@[simp] theorem State.withGen_bitcnt (s : State) (g : Gen) : (s.withGen g).bitcnt = s.bitcnt := rfl
@[simp] theorem State.withGen_bytebuf (s : State) (g : Gen) : (s.withGen g).bytebuf = s.bytebuf := rfl
@[simp] theorem State.withGen_bytecnt (s : State) (g : Gen) : (s.withGen g).bytecnt = s.bytecnt := rfl
@[simp] theorem State.withGen_rsp (s : State) (g : Gen) : (s.withGen g).rsp = s.rsp := rfl
@[simp] theorem State.withGen_entropy (s : State) (g : Gen) : (s.withGen g).entropy = s.entropy := rfl
@[simp] theorem State.withGen_held (s : State) (g : Gen) : (s.withGen g).held = s.held := rfl
@[simp] theorem State.withGen_edges (s : State) (g : Gen) : (s.withGen g).edges = s.edges := rfl
@[simp] theorem State.withGen_received (s : State) (g : Gen) : (s.withGen g).received = s.received := rfl
@[simp] theorem State.withGen_resets (s : State) (g : Gen) : (s.withGen g).resets = s.resets := rfl

@[simp] theorem State.withBitCache_gen (s : State) (b : Word) (c : BitVec 6) : (s.withBitCache b c).gen = s.gen := rfl
@[simp] theorem State.withBitCache_seeded (s : State) (b : Word) (c : BitVec 6) :
    (s.withBitCache b c).seeded = s.seeded := rfl
@[simp] theorem State.withBitCache_bitbuf (s : State) (b : Word) (c : BitVec 6) :
    (s.withBitCache b c).bitbuf = b := rfl
@[simp] theorem State.withBitCache_bitcnt (s : State) (b : Word) (c : BitVec 6) :
    (s.withBitCache b c).bitcnt = c := rfl
@[simp] theorem State.withBitCache_bytebuf (s : State) (b : Word) (c : BitVec 6) :
    (s.withBitCache b c).bytebuf = s.bytebuf := rfl
@[simp] theorem State.withBitCache_bytecnt (s : State) (b : Word) (c : BitVec 6) :
    (s.withBitCache b c).bytecnt = s.bytecnt := rfl
@[simp] theorem State.withBitCache_rsp (s : State) (b : Word) (c : BitVec 6) : (s.withBitCache b c).rsp = s.rsp := rfl
@[simp] theorem State.withBitCache_entropy (s : State) (b : Word) (c : BitVec 6) :
    (s.withBitCache b c).entropy = s.entropy := rfl
@[simp] theorem State.withBitCache_held (s : State) (b : Word) (c : BitVec 6) :
    (s.withBitCache b c).held = s.held := rfl
@[simp] theorem State.withBitCache_edges (s : State) (b : Word) (c : BitVec 6) :
    (s.withBitCache b c).edges = s.edges := rfl
@[simp] theorem State.withBitCache_received (s : State) (b : Word) (c : BitVec 6) :
    (s.withBitCache b c).received = s.received := rfl
@[simp] theorem State.withBitCache_resets (s : State) (b : Word) (c : BitVec 6) :
    (s.withBitCache b c).resets = s.resets := rfl

@[simp] theorem State.withByteCache_gen (s : State) (b : Word) (c : BitVec 3) :
    (s.withByteCache b c).gen = s.gen := rfl
@[simp] theorem State.withByteCache_seeded (s : State) (b : Word) (c : BitVec 3) :
    (s.withByteCache b c).seeded = s.seeded := rfl
@[simp] theorem State.withByteCache_bitbuf (s : State) (b : Word) (c : BitVec 3) :
    (s.withByteCache b c).bitbuf = s.bitbuf := rfl
@[simp] theorem State.withByteCache_bitcnt (s : State) (b : Word) (c : BitVec 3) :
    (s.withByteCache b c).bitcnt = s.bitcnt := rfl
@[simp] theorem State.withByteCache_bytebuf (s : State) (b : Word) (c : BitVec 3) :
    (s.withByteCache b c).bytebuf = b := rfl
@[simp] theorem State.withByteCache_bytecnt (s : State) (b : Word) (c : BitVec 3) :
    (s.withByteCache b c).bytecnt = c := rfl
@[simp] theorem State.withByteCache_rsp (s : State) (b : Word) (c : BitVec 3) :
    (s.withByteCache b c).rsp = s.rsp := rfl
@[simp] theorem State.withByteCache_entropy (s : State) (b : Word) (c : BitVec 3) :
    (s.withByteCache b c).entropy = s.entropy := rfl
@[simp] theorem State.withByteCache_held (s : State) (b : Word) (c : BitVec 3) :
    (s.withByteCache b c).held = s.held := rfl
@[simp] theorem State.withByteCache_edges (s : State) (b : Word) (c : BitVec 3) :
    (s.withByteCache b c).edges = s.edges := rfl
@[simp] theorem State.withByteCache_received (s : State) (b : Word) (c : BitVec 3) :
    (s.withByteCache b c).received = s.received := rfl
@[simp] theorem State.withByteCache_resets (s : State) (b : Word) (c : BitVec 3) :
    (s.withByteCache b c).resets = s.resets := rfl

@[simp] theorem State.withResponse_gen (s : State) (r : Response) : (s.withResponse r).gen = s.gen := rfl
@[simp] theorem State.withResponse_seeded (s : State) (r : Response) : (s.withResponse r).seeded = s.seeded := rfl
@[simp] theorem State.withResponse_bitbuf (s : State) (r : Response) : (s.withResponse r).bitbuf = s.bitbuf := rfl
@[simp] theorem State.withResponse_bitcnt (s : State) (r : Response) : (s.withResponse r).bitcnt = s.bitcnt := rfl
@[simp] theorem State.withResponse_bytebuf (s : State) (r : Response) : (s.withResponse r).bytebuf = s.bytebuf := rfl
@[simp] theorem State.withResponse_bytecnt (s : State) (r : Response) : (s.withResponse r).bytecnt = s.bytecnt := rfl
@[simp] theorem State.withResponse_rsp (s : State) (r : Response) : (s.withResponse r).rsp = some r := rfl
@[simp] theorem State.withResponse_entropy (s : State) (r : Response) : (s.withResponse r).entropy = s.entropy := rfl
@[simp] theorem State.withResponse_held (s : State) (r : Response) : (s.withResponse r).held = s.held := rfl
@[simp] theorem State.withResponse_edges (s : State) (r : Response) : (s.withResponse r).edges = s.edges := rfl
@[simp] theorem State.withResponse_received (s : State) (r : Response) :
    (s.withResponse r).received = s.received := rfl
@[simp] theorem State.withResponse_resets (s : State) (r : Response) : (s.withResponse r).resets = s.resets := rfl

@[simp] theorem seedExpand_gen (v : DWord) (s : State) : (seedExpand v s).gen = seedWords v := rfl
@[simp] theorem seedExpand_seeded (v : DWord) (s : State) : (seedExpand v s).seeded = true := rfl
@[simp] theorem seedExpand_bitbuf (v : DWord) (s : State) : (seedExpand v s).bitbuf = 0 := rfl
@[simp] theorem seedExpand_bitcnt (v : DWord) (s : State) : (seedExpand v s).bitcnt = 0 := rfl
@[simp] theorem seedExpand_bytebuf (v : DWord) (s : State) : (seedExpand v s).bytebuf = 0 := rfl
@[simp] theorem seedExpand_bytecnt (v : DWord) (s : State) : (seedExpand v s).bytecnt = 0 := rfl
@[simp] theorem seedExpand_rsp (v : DWord) (s : State) : (seedExpand v s).rsp = s.rsp := rfl
@[simp] theorem seedExpand_entropy (v : DWord) (s : State) : (seedExpand v s).entropy = s.entropy := rfl
@[simp] theorem seedExpand_held (v : DWord) (s : State) : (seedExpand v s).held = s.held := rfl
@[simp] theorem seedExpand_edges (v : DWord) (s : State) : (seedExpand v s).edges = s.edges := rfl
@[simp] theorem seedExpand_received (v : DWord) (s : State) : (seedExpand v s).received = s.received := rfl
@[simp] theorem seedExpand_resets (v : DWord) (s : State) : (seedExpand v s).resets = s.resets := rfl

@[simp] theorem resetEvent_gen (s : State) : (resetEvent s).gen = wordsAfterReset s.resets s.gen := rfl
@[simp] theorem resetEvent_seeded (s : State) : (resetEvent s).seeded = false := rfl
@[simp] theorem resetEvent_bitbuf (s : State) : (resetEvent s).bitbuf = 0 := rfl
@[simp] theorem resetEvent_bitcnt (s : State) : (resetEvent s).bitcnt = 0 := rfl
@[simp] theorem resetEvent_bytebuf (s : State) : (resetEvent s).bytebuf = 0 := rfl
@[simp] theorem resetEvent_bytecnt (s : State) : (resetEvent s).bytecnt = 0 := rfl
@[simp] theorem resetEvent_rsp (s : State) : (resetEvent s).rsp = none := rfl
@[simp] theorem resetEvent_entropy (s : State) : (resetEvent s).entropy = s.entropy := rfl
@[simp] theorem resetEvent_held (s : State) : (resetEvent s).held = s.held := rfl
@[simp] theorem resetEvent_edges (s : State) : (resetEvent s).edges = s.edges := rfl
@[simp] theorem resetEvent_received (s : State) : (resetEvent s).received = s.received := rfl
@[simp] theorem resetEvent_resets (s : State) : (resetEvent s).resets = s.resets + 1 := rfl

@[simp] theorem sampleInputs_gen (e : Edge) (h : Option CmdWord) (s : State) : (sampleInputs e h s).gen = s.gen := rfl
@[simp] theorem sampleInputs_seeded (e : Edge) (h : Option CmdWord) (s : State) :
    (sampleInputs e h s).seeded = s.seeded := rfl
@[simp] theorem sampleInputs_bitbuf (e : Edge) (h : Option CmdWord) (s : State) :
    (sampleInputs e h s).bitbuf = s.bitbuf := rfl
@[simp] theorem sampleInputs_bitcnt (e : Edge) (h : Option CmdWord) (s : State) :
    (sampleInputs e h s).bitcnt = s.bitcnt := rfl
@[simp] theorem sampleInputs_bytebuf (e : Edge) (h : Option CmdWord) (s : State) :
    (sampleInputs e h s).bytebuf = s.bytebuf := rfl
@[simp] theorem sampleInputs_bytecnt (e : Edge) (h : Option CmdWord) (s : State) :
    (sampleInputs e h s).bytecnt = s.bytecnt := rfl
@[simp] theorem sampleInputs_rsp (e : Edge) (h : Option CmdWord) (s : State) : (sampleInputs e h s).rsp = s.rsp := rfl
@[simp] theorem sampleInputs_entropy (e : Edge) (h : Option CmdWord) (s : State) :
    (sampleInputs e h s).entropy = e.entropy := rfl
@[simp] theorem sampleInputs_held (e : Edge) (h : Option CmdWord) (s : State) : (sampleInputs e h s).held = h := rfl
@[simp] theorem sampleInputs_edges (e : Edge) (h : Option CmdWord) (s : State) :
    (sampleInputs e h s).edges = s.edges := rfl
@[simp] theorem sampleInputs_received (e : Edge) (h : Option CmdWord) (s : State) :
    (sampleInputs e h s).received = s.received := rfl
@[simp] theorem sampleInputs_resets (e : Edge) (h : Option CmdWord) (s : State) :
    (sampleInputs e h s).resets = s.resets := rfl

/-- Two named updates of the same field keep the second. -/
@[simp] theorem State.withGen_withGen (s : State) (g h : Gen) : (s.withGen g).withGen h = s.withGen h := rfl

@[simp] theorem State.withResponse_withResponse (s : State) (r q : Response) :
    (s.withResponse r).withResponse q = s.withResponse q := rfl

end Sys2Proof.Machine
end

