-- ==== Sys2Proof/Laws/StepUnit.lean ====
section
/-!
SUPPORT. The step unit (40_step_unit.md): iteration, linearity over exclusive or (R71), the shift identities behind its
inverse (R72), and the fixed point (R73).
-/

namespace Sys2Proof.Machine

/-! ## Iteration -/

@[simp] theorem Gen.advance_zero (g : Gen) : g.advance 0 = g := rfl

theorem Gen.advance_succ (g : Gen) (k : Nat) : g.advance (k + 1) = g.step.advance k := rfl

theorem Gen.advance_add (g : Gen) (j k : Nat) : g.advance (j + k) = (g.advance j).advance k := by
  induction j generalizing g with
  | zero => simp
  | succ j ih => rw [Nat.succ_add, Gen.advance_succ, ih, Gen.advance_succ]

/-- The last of `k + 1` steps, split off at the end. -/
theorem Gen.advance_succ' (g : Gen) (k : Nat) : g.advance (k + 1) = (g.advance k).step :=
  Gen.advance_add g k 1

theorem Gen.advance_one (g : Gen) : g.advance 1 = g.step := rfl

theorem Gen.raw_zero (g : Gen) : g.raw 0 = g.step.w := rfl

theorem Gen.raw_succ (g : Gen) (k : Nat) : g.raw (k + 1) = g.step.raw k := rfl

theorem Gen.raw_advance (g : Gen) (j k : Nat) : (g.advance j).raw k = g.raw (j + k) := by
  unfold Gen.raw; rw [← Gen.advance_add, Nat.add_assoc]

/-- Each step moves the words down and enters the raw word at `w` (R70). -/
theorem Gen.step_eq (g : Gen) : g.step = { x := g.y, y := g.z, z := g.w, w := g.raw 0 } := rfl

/-! ## Linearity -/

/-- Exclusive or, word by word (R71). -/
def Gen.xor (g h : Gen) : Gen := { x := g.x ^^^ h.x, y := g.y ^^^ h.y, z := g.z ^^^ h.z, w := g.w ^^^ h.w }

@[simp] theorem Gen.xor_x (g h : Gen) : (g.xor h).x = g.x ^^^ h.x := rfl
@[simp] theorem Gen.xor_y (g h : Gen) : (g.xor h).y = g.y ^^^ h.y := rfl
@[simp] theorem Gen.xor_z (g h : Gen) : (g.xor h).z = g.z ^^^ h.z := rfl
@[simp] theorem Gen.xor_w (g h : Gen) : (g.xor h).w = g.w ^^^ h.w := rfl

theorem Gen.ext_words {g h : Gen} (hx : g.x = h.x) (hy : g.y = h.y) (hz : g.z = h.z) (hw : g.w = h.w) : g = h := by
  cases g; cases h; simp_all

theorem Gen.xor_comm (g h : Gen) : g.xor h = h.xor g := by
  apply Gen.ext_words <;> simp [BitVec.xor_comm]

theorem Gen.xor_assoc (f g h : Gen) : (f.xor g).xor h = f.xor (g.xor h) := by
  apply Gen.ext_words <;> simp [BitVec.xor_assoc]

@[simp] theorem Gen.xor_self (g : Gen) : g.xor g = Gen.zero := by
  apply Gen.ext_words <;> simp [Gen.zero]

@[simp] theorem Gen.zero_xor (g : Gen) : Gen.zero.xor g = g := by
  apply Gen.ext_words <;> simp [Gen.zero]

@[simp] theorem Gen.xor_zero (g : Gen) : g.xor Gen.zero = g := by
  apply Gen.ext_words <;> simp [Gen.zero]

theorem Gen.xor_eq_zero {g h : Gen} (e : g.xor h = Gen.zero) : g = h := by
  have := congrArg (fun f => f.xor h) e
  simpa [Gen.xor_assoc] using this

/-- The two halves of the raw word as one function each of `x` and of `w`: `t ^ (t >> 8)` and `w ^ (w >> 19)` (R70). -/
theorem Gen.raw_zero_eq (g : Gen) :
    g.raw 0 = (g.w ^^^ g.w >>> 19) ^^^ ((g.x ^^^ g.x <<< 11) ^^^ (g.x ^^^ g.x <<< 11) >>> 8) := rfl

theorem Gen.raw_xor (g h : Gen) : (g.xor h).raw 0 = g.raw 0 ^^^ h.raw 0 := by
  simp only [Gen.raw_zero_eq, Gen.xor_x, Gen.xor_w, BitVec.shiftLeft_xor_distrib, BitVec.ushiftRight_xor_distrib]
  ac_rfl

/-- The transition of the four words distributes over exclusive or. -/
theorem Gen.step_distrib_xor (g h : Gen) : (g.xor h).step = g.step.xor h.step := by
  simp only [Gen.step_eq, Gen.raw_xor]
  rfl

theorem Gen.advance_distrib_xor (g h : Gen) (k : Nat) : (g.xor h).advance k = (g.advance k).xor (h.advance k) := by
  induction k generalizing g h with
  | zero => rfl
  | succ k ih => simp only [Gen.advance_succ, Gen.step_distrib_xor, ih]

/-! ## The inverse -/

/-- Two links of a chain of exclusive ors join. -/
theorem xor_link (a b c : Word) : (a ^^^ b) ^^^ (b ^^^ c) = a ^^^ c := by
  rw [BitVec.xor_assoc, ← BitVec.xor_assoc b b c, BitVec.xor_self, BitVec.zero_xor]

/-- `v ^ (v << 11)` is undone by `t ^ (t << 11) ^ (t << 22)` (R72). -/
theorem undo_shiftLeft (v : Word) :
    (v ^^^ v <<< 11) ^^^ (v ^^^ v <<< 11) <<< 11 ^^^ (v ^^^ v <<< 11) <<< 22 = v := by
  have h : v <<< 33 = 0#32 := BitVec.shiftLeft_eq_zero (by omega)
  simp only [BitVec.shiftLeft_xor_distrib, ← BitVec.shiftLeft_add, Nat.reduceAdd, h, xor_link, BitVec.xor_zero]
  rw [BitVec.xor_assoc, BitVec.xor_self, BitVec.xor_zero]

/-- `t ^ (t >> 8)` is undone by `u ^ (u >> 8) ^ (u >> 16) ^ (u >> 24)` (R72). -/
theorem undo_shiftRight (t : Word) :
    (t ^^^ t >>> 8) ^^^ (t ^^^ t >>> 8) >>> 8 ^^^ (t ^^^ t >>> 8) >>> 16 ^^^ (t ^^^ t >>> 8) >>> 24 = t := by
  have h : t >>> 32 = 0#32 := BitVec.ushiftRight_eq_zero (by omega)
  simp only [BitVec.ushiftRight_xor_distrib, ← BitVec.shiftRight_add, Nat.reduceAdd, h, xor_link, BitVec.xor_zero]
  rw [BitVec.xor_assoc, BitVec.xor_self, BitVec.xor_zero]

/-- `t ^ (t >> 8)` determines `t`. -/
theorem shiftRight_injective {t t' : Word} (e : t ^^^ t >>> 8 = t' ^^^ t' >>> 8) : t = t' := by
  rw [← undo_shiftRight t, ← undo_shiftRight t', e]

/-- `v ^ (v << 11)` determines `v`. -/
theorem shiftLeft_injective {v v' : Word} (e : v ^^^ v <<< 11 = v' ^^^ v' <<< 11) : v = v' := by
  rw [← undo_shiftLeft v, ← undo_shiftLeft v', e]

/-- No two states have the same successor. -/
theorem Gen.step_injective {g h : Gen} (e : g.step = h.step) : g = h := by
  simp only [Gen.step_eq, Gen.mk.injEq] at e
  obtain ⟨hy, hz, hw, hn⟩ := e
  simp only [Gen.raw_zero_eq, hw, BitVec.xor_right_inj] at hn
  exact Gen.ext_words (shiftLeft_injective (shiftRight_injective hn)) hy hz hw

theorem Gen.advance_injective {g h : Gen} {k : Nat} (e : g.advance k = h.advance k) : g = h := by
  induction k generalizing g h with
  | zero => exact e
  | succ k ih => exact Gen.step_injective (ih e)

/-! ## The fixed point -/

@[simp] theorem Gen.zero_step : Gen.zero.step = Gen.zero := by decide

@[simp] theorem Gen.zero_advance (k : Nat) : Gen.zero.advance k = Gen.zero := by
  induction k with
  | zero => rfl
  | succ k ih => rw [Gen.advance_succ, Gen.zero_step, ih]

/-- Only the all-zero state reaches the all-zero state. -/
theorem Gen.advance_eq_zero {g : Gen} {k : Nat} (e : g.advance k = Gen.zero) : g = Gen.zero :=
  Gen.advance_injective (e.trans (Gen.zero_advance k).symm)

end Sys2Proof.Machine
end

