-- ==== Sys2Proof/Laws/Recurrence.lean ====
section
/-!
SUPPORT. The step unit as a linear map over GF(2) (R71): a polynomial in it, written as the bits of a number, and the
polynomial of degree 128 that annihilates every state. From the odd number of its terms it follows that the top bit of
the raw word cannot be 1 for 129 draws in a row, which is why the rejection loop of R90 ends (R96).
-/

namespace Sys2Proof.Machine

/-- The polynomial whose coefficient of degree `i` is bit `i` of `p`, for the degrees below `n`, applied to a state with
the step for its variable. -/
def Gen.comb : Nat → Nat → Gen → Gen
  | 0, _, _ => Gen.zero
  | n + 1, p, g => if p % 2 = 1 then g.xor (Gen.comb n (p / 2) g.step) else Gen.comb n (p / 2) g.step

theorem Gen.comb_succ (n p : Nat) (g : Gen) :
    Gen.comb (n + 1) p g = if p % 2 = 1 then g.xor (Gen.comb n (p / 2) g.step) else Gen.comb n (p / 2) g.step := rfl

/-- The zero polynomial. -/
theorem Gen.comb_no_terms (n : Nat) (g : Gen) : Gen.comb n 0 g = Gen.zero := by
  induction n generalizing g with
  | zero => rfl
  | succ n ih => rw [Gen.comb_succ, if_neg (by omega), Nat.zero_div, ih]

/-- The constant polynomial 1. -/
theorem Gen.comb_one (n : Nat) (g : Gen) : Gen.comb (n + 1) 1 g = g := by
  rw [Gen.comb_succ, if_pos rfl, show 1 / 2 = 0 from rfl, Gen.comb_no_terms]
  apply Gen.ext_words <;> simp [Gen.zero]

theorem Gen.comb_distrib_xor (n p : Nat) (g h : Gen) :
    Gen.comb n p (g.xor h) = (Gen.comb n p g).xor (Gen.comb n p h) := by
  induction n generalizing p g h with
  | zero => simp [Gen.comb]
  | succ n ih =>
    simp only [Gen.comb, Gen.step_distrib_xor, ih]
    split
    · generalize Gen.comb n (p / 2) g.step = a
      generalize Gen.comb n (p / 2) h.step = b
      apply Gen.ext_words <;> simp only [Gen.xor_x, Gen.xor_y, Gen.xor_z, Gen.xor_w] <;> ac_rfl
    · rfl

theorem Gen.comb_step (n p : Nat) (g : Gen) : Gen.comb n p g.step = (Gen.comb n p g).step := by
  induction n generalizing p g with
  | zero => simp [Gen.comb]
  | succ n ih =>
    simp only [Gen.comb, ih]
    split
    · rw [Gen.step_distrib_xor]
    · rfl

@[simp] theorem Gen.comb_of_zero (n p : Nat) : Gen.comb n p Gen.zero = Gen.zero := by
  induction n generalizing p with
  | zero => rfl
  | succ n ih => simp [Gen.comb, ih]

/-- Addition of polynomials is exclusive or of their bits. -/
theorem Gen.comb_xor (n p q : Nat) (g : Gen) :
    Gen.comb n (p ^^^ q) g = (Gen.comb n p g).xor (Gen.comb n q g) := by
  induction n generalizing p q g with
  | zero => simp [Gen.comb]
  | succ n ih =>
    have hd : (p ^^^ q) / 2 = p / 2 ^^^ q / 2 := Nat.xor_div_two
    have hm : (p ^^^ q) % 2 = (p + q) % 2 := by
      rw [Nat.xor_mod_two_eq]
    simp only [Gen.comb, hd, ih]
    generalize Gen.comb n (p / 2) g.step = a
    generalize Gen.comb n (q / 2) g.step = b
    rcases Nat.mod_two_eq_zero_or_one p with hp | hp <;> rcases Nat.mod_two_eq_zero_or_one q with hq | hq
    · rw [if_neg (by omega), if_neg (by omega), if_neg (by omega)]
    · rw [if_pos (by omega), if_neg (by omega), if_pos (by omega), ← Gen.xor_assoc, ← Gen.xor_assoc, Gen.xor_comm a g]
    · rw [if_pos (by omega), if_pos (by omega), if_neg (by omega), Gen.xor_assoc]
    · rw [if_neg (by omega), if_pos (by omega), if_pos (by omega), Gen.xor_comm g a, Gen.xor_assoc,
        ← Gen.xor_assoc g g b, Gen.xor_self, Gen.zero_xor]

/-- Leading zero coefficients add nothing. -/
theorem Gen.comb_succ_of_lt (n p : Nat) (g : Gen) (h : p < 2 ^ n) : Gen.comb (n + 1) p g = Gen.comb n p g := by
  induction n generalizing p g with
  | zero =>
    have : p = 0 := by simpa using h
    subst this; simp [Gen.comb]
  | succ n ih =>
    have : p / 2 < 2 ^ n := by rw [Nat.pow_succ] at h; omega
    rw [Gen.comb, ih _ _ this, Gen.comb]

/-! ## The annihilating polynomial -/

/-- A polynomial of degree 128 with 47 terms. -/
def stepPoly : Nat := 0x1000000010046d8b3f985d65ffd3c8001

/-- A state whose only non-zero word is `x`. -/
def Gen.ofX (v : Word) : Gen := { x := v, y := 0, z := 0, w := 0 }

theorem Gen.ofX_xor (u v : Word) : Gen.ofX (u ^^^ v) = (Gen.ofX u).xor (Gen.ofX v) := by
  apply Gen.ext_words <;> simp [Gen.ofX]

/-- On each of the 32 unit vectors of `x` it is evaluated. -/
theorem stepPoly_unit : ∀ i : Fin 32, Gen.comb 129 stepPoly (Gen.ofX (1#32 <<< i.val)) = Gen.zero := by
  decide +kernel

/-- A map that distributes over exclusive or and is zero on the unit vectors is zero. -/
theorem eq_zero_of_units {f : Word → Gen} (hx : ∀ u v, f (u ^^^ v) = (f u).xor (f v))
    (hu : ∀ i : Fin 32, f (1#32 <<< i.val) = Gen.zero) (v : Word) : f v = Gen.zero := by
  have h0 : f 0#32 = Gen.zero := by
    have := hx 0#32 0#32
    rwa [BitVec.xor_self, Gen.xor_self] at this
  have key : ∀ k, k ≤ 32 → ∀ u : Word, u.toNat < 2 ^ k → f u = Gen.zero := by
    intro k
    induction k with
    | zero =>
      intro _ u hu'
      have : u = 0#32 := by apply BitVec.eq_of_toNat_eq; simpa using hu'
      rw [this, h0]
    | succ k ih =>
      intro hk u hlt
      by_cases hb : u.getLsbD k
      · have hs : u = (u ^^^ 1#32 <<< k) ^^^ 1#32 <<< k := by
          rw [BitVec.xor_assoc, BitVec.xor_self, BitVec.xor_zero]
        rw [hs, hx, hu ⟨k, by omega⟩, Gen.xor_zero]
        apply ih (by omega)
        apply Nat.lt_pow_two_of_testBit
        intro i hi
        rw [BitVec.testBit_toNat, BitVec.getLsbD_xor, BitVec.getLsbD_shiftLeft]
        by_cases hik : i = k
        · subst hik; simp [hb, show i < 32 by omega]
        · have h1 : u.getLsbD i = false := by
            rw [← BitVec.testBit_toNat]
            exact Nat.testBit_lt_two_pow (lt_of_lt_of_le hlt (Nat.pow_le_pow_right (by omega) (by omega)))
          have h2 : (1#32).getLsbD (i - k) = false := by
            simp [BitVec.getLsbD_one, show i - k ≠ 0 by omega]
          simp [h1, h2]
      · apply ih (by omega)
        apply Nat.lt_pow_two_of_testBit
        intro i hi
        by_cases hik : i = k
        · subst hik; rw [BitVec.testBit_toNat]; simpa using hb
        · exact Nat.testBit_lt_two_pow (lt_of_lt_of_le hlt (Nat.pow_le_pow_right (by omega) (by omega)))
  exact key 32 (by omega) v v.isLt

theorem stepPoly_ofX (v : Word) : Gen.comb 129 stepPoly (Gen.ofX v) = Gen.zero :=
  eq_zero_of_units (f := fun v => Gen.comb 129 stepPoly (Gen.ofX v))
    (fun u v => by simp only [Gen.ofX_xor, Gen.comb_distrib_xor]) stepPoly_unit v

/-- Where it annihilates the successor it annihilates the state. -/
theorem stepPoly_of_step {g : Gen} (h : Gen.comb 129 stepPoly g.step = Gen.zero) :
    Gen.comb 129 stepPoly g = Gen.zero := by
  rw [Gen.comb_step] at h
  exact Gen.advance_eq_zero (k := 1) h

/-- It annihilates every state. -/
theorem stepPoly_annihilates (g : Gen) : Gen.comb 129 stepPoly g = Gen.zero := by
  have hy : ∀ v, Gen.comb 129 stepPoly { x := 0, y := v, z := 0, w := 0 } = Gen.zero := fun v =>
    stepPoly_of_step (by
      have e : Gen.step { x := 0, y := v, z := 0, w := 0 } = Gen.ofX v := by
        simp [Gen.step, Gen.ofX]
      rw [e, stepPoly_ofX])
  have hz : ∀ v, Gen.comb 129 stepPoly { x := 0, y := 0, z := v, w := 0 } = Gen.zero := fun v =>
    stepPoly_of_step (by
      have e : Gen.step { x := 0, y := 0, z := v, w := 0 } = { x := 0, y := v, z := 0, w := 0 } := by
        simp [Gen.step]
      rw [e, hy])
  have hw : ∀ v, Gen.comb 129 stepPoly { x := 0, y := 0, z := 0, w := v } = Gen.zero := fun v => by
    let t := v ^^^ v >>> 8 ^^^ v >>> 16 ^^^ v >>> 24
    let u := t ^^^ t <<< 11 ^^^ t <<< 22
    have ht : t ^^^ t >>> 8 = v := by
      have h : v >>> 32 = 0#32 := BitVec.ushiftRight_eq_zero (by omega)
      simp only [t, BitVec.ushiftRight_xor_distrib, ← BitVec.shiftRight_add, Nat.reduceAdd, h, BitVec.xor_zero]
      generalize v >>> 8 = a; generalize v >>> 16 = b; generalize v >>> 24 = c
      rw [show v ^^^ a ^^^ b ^^^ c ^^^ (a ^^^ b ^^^ c) = v ^^^ ((a ^^^ b ^^^ c) ^^^ (a ^^^ b ^^^ c)) by ac_rfl,
        BitVec.xor_self, BitVec.xor_zero]
    have hu : u ^^^ u <<< 11 = t := by
      have h : t <<< 33 = 0#32 := BitVec.shiftLeft_eq_zero (by omega)
      simp only [u, BitVec.shiftLeft_xor_distrib, ← BitVec.shiftLeft_add, Nat.reduceAdd, h, BitVec.xor_zero]
      generalize t <<< 11 = a; generalize t <<< 22 = b
      rw [show t ^^^ a ^^^ b ^^^ (a ^^^ b) = t ^^^ ((a ^^^ b) ^^^ (a ^^^ b)) by ac_rfl,
        BitVec.xor_self, BitVec.xor_zero]
    have e : Gen.step (Gen.ofX u) = { x := 0, y := 0, z := 0, w := v } := by
      have : Gen.step (Gen.ofX u) =
          { x := 0, y := 0, z := 0, w := (0#32 ^^^ 0#32 >>> 19) ^^^ ((u ^^^ u <<< 11) ^^^ (u ^^^ u <<< 11) >>> 8) } := rfl
      rw [this, hu, ht]; simp
    rw [← e, Gen.comb_step, stepPoly_ofX, Gen.zero_step]
  have split : g = (((Gen.ofX g.x).xor { x := 0, y := g.y, z := 0, w := 0 }).xor
      { x := 0, y := 0, z := g.z, w := 0 }).xor { x := 0, y := 0, z := 0, w := g.w } := by
    apply Gen.ext_words <;> simp [Gen.ofX]
  rw [split]
  simp only [Gen.comb_distrib_xor, stepPoly_ofX, hy, hz, hw, Gen.xor_zero]

/-! ## How long the top bit can stay 1 -/

/-- Whether an odd number of the low `n` bits of `p` are 1. -/
def oddTerms : Nat → Nat → Bool
  | 0, _ => false
  | n + 1, p => if p % 2 = 1 then !oddTerms n (p / 2) else oddTerms n (p / 2)

/-- If the top bit of `w` is 1 in each of `n` consecutive states, the top bit of the combination counts the terms. -/
theorem comb_topBit (n p : Nat) (g : Gen) (h : ∀ i, i < n → (g.advance i).w.getLsbD 31 = true) :
    (Gen.comb n p g).w.getLsbD 31 = oddTerms n p := by
  induction n generalizing p g with
  | zero => simp [Gen.comb, oddTerms, Gen.zero]
  | succ n ih =>
    have h0 : g.w.getLsbD 31 = true := h 0 (by omega)
    have hr := ih (p / 2) g.step fun i hi => by
      have := h (i + 1) (by omega)
      rwa [Gen.advance_succ] at this
    simp only [Gen.comb, oddTerms]
    split
    · rw [Gen.xor_w, BitVec.getLsbD_xor, h0, hr, Bool.true_xor]
    · exact hr

/-- Among any 129 raw words one has its top bit 0. -/
theorem exists_topBit_clear (g : Gen) : ∃ j, j ≤ 128 ∧ (g.raw j).getLsbD 31 = false := by
  by_contra hn
  have hall : ∀ i, i < 129 → (g.step.advance i).w.getLsbD 31 = true := by
    intro i hi
    have : ¬ (g.raw i).getLsbD 31 = false := fun hc => hn ⟨i, by omega, hc⟩
    simpa [Gen.raw, Gen.advance_succ] using this
  have h1 := comb_topBit 129 stepPoly g.step hall
  rw [stepPoly_annihilates] at h1
  have h2 : oddTerms 129 stepPoly = true := by decide +kernel
  rw [h2] at h1
  simp [Gen.zero] at h1

end Sys2Proof.Machine
end

