-- ==== Sys2Proof/Laws/Ops.lean ====
section
/-!
SUPPORT. One lemma for each shared operation, saying what it can answer: the checks, the bounded draw (R90), the redraw of
R123, the byte stream (R107), the caches (R105, R106) and the operand helpers.
-/

namespace Sys2Proof.Machine

/-! ## Checks and responses -/

theorem ifSeeded_of_seeded {s : State} (h : s.seeded = true) (rest : Result) : ifSeeded s rest = rest := by
  simp [ifSeeded, h]

theorem ifSeeded_of_not_seeded {s : State} (h : s.seeded = false) (rest : Result) :
    ifSeeded s rest = raise .notSeeded s := by
  simp [ifSeeded, h]

theorem respond_eq (d : DWord) (s : State) :
    respond d s = .next (s.withResponse { status := .ok, data := d, bytes := [] }) := rfl

theorem respondBytes_eq (bs : List Byte) (d : DWord) (s : State) :
    respondBytes bs d s = .next (s.withResponse { status := .ok, data := d, bytes := bs }) := rfl

theorem raise_eq (e : Error) (s : State) :
    raise e s = .next (s.withResponse { status := e.status, data := 0, bytes := [] }) := rfl

theorem Error.status_ne_ok (e : Error) : e.status ≠ .ok := by cases e <;> decide

theorem emptyBelow_iff (u : Int) : emptyBelow u = true ↔ u ≤ 0 := by simp [emptyBelow]

theorem emptyBetween_iff (l u : Int) : emptyBetween l u = true ↔ u ≤ l := by simp [emptyBetween]

/-! ## The bounded draw -/

theorem boundedLimit_le (n : Nat) : boundedLimit n ≤ 2 ^ 32 := Nat.sub_le _ _

/-- Below `2^32` the limit is more than half of `2^32`. -/
theorem half_lt_boundedLimit {n : Nat} (h1 : 1 ≤ n) (h2 : n < 2 ^ 32) : 2 ^ 31 < boundedLimit n := by
  have hm : 2 ^ 32 % n < n := Nat.mod_lt _ (by omega)
  unfold boundedLimit
  by_cases hn : n ≤ 2 ^ 31
  · omega
  · have : 2 ^ 32 % n = 2 ^ 32 - n := by
      rw [Nat.mod_eq_sub_mod (by omega), Nat.mod_eq_of_lt (by omega)]
    omega

/-- When the first word below the limit comes within the fuel, the loop answers it. -/
theorem boundedLoop_of_first {n limit k fuel : Nat} {g : Gen} (h : g.FirstBelow limit k) (hk : k < fuel) :
    boundedLoop n limit fuel g = some ((g.raw k).toNat % n, g.advance (k + 1)) := by
  induction k generalizing fuel g with
  | zero =>
    obtain ⟨f, rfl⟩ : ∃ f, fuel = f + 1 := ⟨fuel - 1, by omega⟩
    have : g.step.w.toNat < limit := h.2
    simp [boundedLoop, this, Gen.raw_zero, Gen.advance_one]
  | succ k ih =>
    obtain ⟨f, rfl⟩ : ∃ f, fuel = f + 1 := ⟨fuel - 1, by omega⟩
    have h0 : ¬ g.step.w.toNat < limit := Nat.not_lt.mpr (h.1 0 (by omega))
    have hs : g.step.FirstBelow limit k := ⟨fun j hj => h.1 (j + 1) (by omega), h.2⟩
    rw [boundedLoop, if_neg h0, ih hs (by omega)]
    rfl

/-- What the loop answers, if it answers. -/
theorem boundedLoop_some {n limit fuel : Nat} {g g' : Gen} {v : Nat}
    (h : boundedLoop n limit fuel g = some (v, g')) :
    ∃ k, g.FirstBelow limit k ∧ v = (g.raw k).toNat % n ∧ g' = g.advance (k + 1) := by
  induction fuel generalizing g with
  | zero => simp [boundedLoop] at h
  | succ f ih =>
    rw [boundedLoop] at h
    by_cases hc : g.step.w.toNat < limit
    · rw [if_pos hc] at h
      simp only [Option.some.injEq, Prod.mk.injEq] at h
      exact ⟨0, ⟨fun j hj => by omega, hc⟩, h.1.symm, h.2.symm⟩
    · rw [if_neg hc] at h
      obtain ⟨k, ⟨hr, ha⟩, hv, hg⟩ := ih h
      refine ⟨k + 1, ⟨fun j hj => ?_, ha⟩, hv, hg⟩
      cases j with
      | zero => exact Nat.not_lt.mp hc
      | succ j => exact hr j (by omega)

/-- If a word below the limit comes at all, one comes first. -/
theorem Gen.exists_firstBelow {g : Gen} {limit m : Nat} (h : (g.raw m).toNat < limit) :
    ∃ k, k ≤ m ∧ g.FirstBelow limit k := by
  induction m using Nat.strong_induction_on with
  | _ m ih =>
    by_cases he : ∃ j, j < m ∧ (g.raw j).toNat < limit
    · obtain ⟨j, hj, hl⟩ := he
      obtain ⟨k, hk, hf⟩ := ih j hj hl
      exact ⟨k, by omega, hf⟩
    · exact ⟨m, Nat.le_refl _, fun j hj => Nat.not_lt.mp fun hl => he ⟨j, hj, hl⟩, h⟩

/-- A command that draws a bounded value, if it answers, answers for the first word below the limit. -/
theorem drawBounded_next {n : Nat} {s t : State} {k : Nat → State → Result} (h : drawBounded n s k = .next t) :
    ∃ j, s.gen.FirstBelow (boundedLimit n) j ∧
      k ((s.gen.raw j).toNat % n) (s.withGen (s.gen.advance (j + 1))) = .next t := by
  unfold drawBounded at h
  cases hb : bounded n s.gen with
  | none => simp [hb] at h
  | some p =>
    obtain ⟨j, hf, hv, hg⟩ := boundedLoop_some (v := p.1) (g' := p.2) hb
    simp only [hb, hv, hg] at h
    exact ⟨j, hf, h⟩

/-! ## The redraw of `NEXT_DOUBLE_NZ` -/

theorem real53_eq (g : Gen) : real53 g = (g.attempt 0, g.advance 2) := rfl

theorem nonZeroLoop_succ (f : Nat) (g : Gen) : nonZeroLoop (f + 1) g =
    if g.attempt 0 = 0 then nonZeroLoop f (g.advance 2) else some (g.attempt 0, g.advance 2) := rfl

theorem Gen.attempt_advance (g : Gen) (j : Nat) : (g.advance 2).attempt j = g.attempt (j + 1) := by
  unfold Gen.attempt
  rw [Gen.raw_advance, Gen.raw_advance, show 2 + 2 * j = 2 * (j + 1) by omega,
    show 2 + (2 * j + 1) = 2 * (j + 1) + 1 by omega]

/-- When the first non-zero attempt comes within the fuel, the loop answers it. -/
theorem nonZeroLoop_of_first {k fuel : Nat} {g : Gen} (h : g.FirstNonZero k) (hk : k < fuel) :
    nonZeroLoop fuel g = some (g.attempt k, g.advance (2 * k + 2)) := by
  induction k generalizing fuel g with
  | zero =>
    obtain ⟨f, rfl⟩ : ∃ f, fuel = f + 1 := ⟨fuel - 1, by omega⟩
    rw [nonZeroLoop_succ, if_neg h.2]
  | succ k ih =>
    obtain ⟨f, rfl⟩ : ∃ f, fuel = f + 1 := ⟨fuel - 1, by omega⟩
    have hs : (g.advance 2).FirstNonZero k :=
      ⟨fun j hj => by rw [Gen.attempt_advance]; exact h.1 _ (by omega), by rw [Gen.attempt_advance]; exact h.2⟩
    have h0 : g.attempt 0 = 0 := h.1 0 (by omega)
    rw [nonZeroLoop_succ, if_pos h0, ih hs (by omega), Gen.attempt_advance, ← Gen.advance_add]
    congr 3; omega

/-- What the loop answers, if it answers. -/
theorem nonZeroLoop_some {fuel : Nat} {g g' : Gen} {m : Nat} (h : nonZeroLoop fuel g = some (m, g')) :
    ∃ k, g.FirstNonZero k ∧ m = g.attempt k ∧ g' = g.advance (2 * k + 2) := by
  induction fuel generalizing g with
  | zero => simp [nonZeroLoop] at h
  | succ f ih =>
    rw [nonZeroLoop_succ] at h
    by_cases hc : g.attempt 0 = 0
    · rw [if_pos hc] at h
      obtain ⟨k, ⟨hz, hn⟩, hm, hg⟩ := ih h
      refine ⟨k + 1, ⟨fun j hj => ?_, by rwa [Gen.attempt_advance] at hn⟩, by rw [hm, Gen.attempt_advance], ?_⟩
      · cases j with
        | zero => exact hc
        | succ j => rw [← Gen.attempt_advance]; exact hz j (by omega)
      · rw [hg, ← Gen.advance_add]; congr 1; omega
    · rw [if_neg hc] at h
      simp only [Option.some.injEq, Prod.mk.injEq] at h
      exact ⟨0, ⟨fun j hj => by omega, hc⟩, h.1.symm, h.2.symm⟩

/-! ## The byte stream -/

@[simp] theorem wordBytes_length (r : Word) : (wordBytes r).length = 4 := rfl

theorem wordBytes_getElem (r : Word) (j : Nat) (h : j < (wordBytes r).length) : (wordBytes r)[j] = byteOf r j := by
  have hj : j < 4 := h
  match j, hj with
  | 0, _ => rfl
  | 1, _ => rfl
  | 2, _ => rfl
  | 3, _ => rfl

@[simp] theorem emitWords_gen (c : Nat) (g : Gen) : (emitWords c g).2 = g.advance c := by
  induction c generalizing g with
  | zero => rfl
  | succ c ih => simp [emitWords, ih, Gen.advance_succ]

@[simp] theorem emitWords_length (c : Nat) (g : Gen) : (emitWords c g).1.length = 4 * c := by
  induction c generalizing g with
  | zero => rfl
  | succ c ih => simp [emitWords, ih]; omega

/-- Byte `i` of the word loop is byte `i mod 4` of word `i div 4` (R41). -/
theorem emitWords_getElem (c : Nat) (g : Gen) (i : Nat) (h : i < (emitWords c g).1.length) :
    (emitWords c g).1[i] = byteOf (g.raw (i / 4)) (i % 4) := by
  induction c generalizing g i with
  | zero => simp [emitWords] at h
  | succ c ih =>
    have e : (emitWords (c + 1) g).1 = wordBytes g.step.w ++ (emitWords c g.step).1 := rfl
    simp only [e]
    by_cases hi : i < (wordBytes g.step.w).length
    · have h4 : i < 4 := hi
      rw [List.getElem_append_left hi, wordBytes_getElem, show i / 4 = 0 by omega, Nat.mod_eq_of_lt h4, Gen.raw_zero]
    · have h4 : ¬ i < 4 := hi
      rw [List.getElem_append_right (Nat.not_lt.mp hi), ih, ← Gen.raw_succ]
      simp only [wordBytes_length]
      rw [show (i - 4) / 4 + 1 = i / 4 by omega, show (i - 4) % 4 = i % 4 by omega]

@[simp] theorem emitTail_gen (rem : Nat) (g : Gen) : (emitTail rem g).2 = if rem = 0 then g else g.step := by
  unfold emitTail; split <;> rfl

theorem emitTail_length {rem : Nat} (h : rem < 4) (g : Gen) : (emitTail rem g).1.length = rem := by
  unfold emitTail
  split
  · simp_all
  · simp; omega

/-- Byte `j` of the tail is byte `j` of one more word. -/
theorem emitTail_getElem {rem : Nat} (g : Gen) (j : Nat) (h : j < (emitTail rem g).1.length) :
    (emitTail rem g).1[j] = byteOf (g.raw 0) j := by
  by_cases hr : rem = 0
  · simp [emitTail, hr] at h
  · simp only [emitTail, if_neg hr, List.getElem_take]
    rw [wordBytes_getElem, Gen.raw_zero]

/-! ## The caches -/

theorem refillBits_of_empty {s : State} (h : s.bitcnt = 0) :
    refillBits s = (s.withGen s.gen.step).withBitCache (s.gen.raw 0) 32 := by
  simp [refillBits, h, Gen.advance_one]

theorem refillBits_of_not_empty {s : State} (h : s.bitcnt ≠ 0) : refillBits s = s := by
  rw [refillBits, if_neg h]

theorem refillBytes_of_empty {s : State} (h : s.bytecnt = 0) :
    refillBytes s = (s.withGen s.gen.step).withByteCache (s.gen.raw 0) 4 := by
  simp [refillBytes, h, Gen.advance_one]

theorem refillBytes_of_not_empty {s : State} (h : s.bytecnt ≠ 0) : refillBytes s = s := by
  rw [refillBytes, if_neg h]

/-- A refill writes the generator words and the Boolean cache only. -/
theorem refillBits_frame (s : State) : ∃ g b c, refillBits s = (s.withGen g).withBitCache b c := by
  by_cases h : s.bitcnt = 0
  · exact ⟨_, _, _, refillBits_of_empty h⟩
  · exact ⟨s.gen, s.bitbuf, s.bitcnt, refillBits_of_not_empty h⟩

/-- A refill writes the generator words and the byte cache only. -/
theorem refillBytes_frame (s : State) : ∃ g b c, refillBytes s = (s.withGen g).withByteCache b c := by
  by_cases h : s.bytecnt = 0
  · exact ⟨_, _, _, refillBytes_of_empty h⟩
  · exact ⟨s.gen, s.bytebuf, s.bytecnt, refillBytes_of_not_empty h⟩

/-! ## Operand helpers -/

theorem zextBit_eq (v : Word) : zextBit (v.getLsbD 0) = BitVec.ofNat 64 (v.toNat % 2) := by
  have : v.getLsbD 0 = decide (v.toNat % 2 = 1) := by
    rw [← BitVec.testBit_toNat, Nat.testBit_zero]
  rw [this]
  rcases Nat.mod_two_eq_zero_or_one v.toNat with h | h <;> simp [zextBit, h]

theorem byteOf_zero_toNat (v : Word) : (byteOf v 0).toNat = v.toNat % 256 := by
  simp [byteOf, BitVec.extractLsb'_toNat]

theorem zextByte_toNat (b : Byte) : (zextByte b).toNat = b.toNat := by
  have := b.isLt
  simp [zextByte]
  omega

theorem zextWord_eq (v : Word) : zextWord v = BitVec.ofNat 64 v.toNat := by
  apply BitVec.eq_of_toNat_eq
  simp [zextWord]

theorem maskSign_toNat (r : Word) : (maskSign r).toNat = r.toNat % 2 ^ 31 := by
  unfold maskSign
  rw [BitVec.toNat_and]
  exact Nat.and_two_pow_sub_one_eq_mod r.toNat 31

theorem join53_eq (r1 r2 : Word) : join53 r1 r2 = r1.toNat / 2 ^ 5 * 2 ^ 26 + r2.toNat / 2 ^ 6 := by
  simp [join53, BitVec.toNat_ushiftRight, Nat.shiftRight_eq_div_pow]

theorem join53_lt (r1 r2 : Word) : join53 r1 r2 < 2 ^ 53 := by
  rw [join53_eq]
  have := r1.isLt
  have := r2.isLt
  omega

theorem high24_eq (r : Word) : high24 r = r.toNat / 2 ^ 8 := by
  simp [high24, BitVec.toNat_ushiftRight, Nat.shiftRight_eq_div_pow]

theorem high24_lt (r : Word) : high24 r < 2 ^ 24 := by
  rw [high24_eq]
  have := r.isLt
  omega

end Sys2Proof.Machine
end

