-- ==== Sys2Proof/Laws/Exec.lean ====
section
/-!
SUPPORT. Everything a command can answer, said once: `exec_answer` and `accept_cases` are the inversion lemmas that a proof
about all commands cites instead of unfolding the meanings.
-/

namespace Sys2Proof.Machine

/-- What a drawing command can answer: before seeding, only the refusal of R132. -/
theorem ifSeeded_next {s t : State} {rest : Result} (h : ifSeeded s rest = .next t) :
    (s.seeded = true ∧ rest = .next t) ∨ (s.seeded = false ∧ t = s.withResponse ⟨.errNotSeeded, 0, []⟩) := by
  unfold ifSeeded at h
  cases hs : s.seeded with
  | true => rw [hs, if_pos rfl] at h; exact .inl ⟨rfl, h⟩
  | false =>
    rw [hs, if_neg (by decide), raise_eq] at h
    exact .inr ⟨rfl, (Host.Outcome.next.inj h).symm⟩

/-- The bytes of `NEXT_BYTES len` (R107). -/
def streamBytes (len : Nat) (g : Gen) : List Byte :=
  (emitWords (len / 4) g).1 ++ (emitTail (len % 4) (g.advance (len / 4))).1

theorem streamBytes_length (len : Nat) (g : Gen) : (streamBytes len g).length = len := by
  unfold streamBytes
  rw [List.length_append, emitWords_length, emitTail_length (by omega)]
  omega

/-- The generator words after the loop and the tail of `NEXT_BYTES`. -/
theorem emit_gen (len : Nat) (g : Gen) :
    (emitTail (len % 4) (emitWords (len / 4) g).2).2 = g.advance ((len + 3) / 4) := by
  rw [emitTail_gen, emitWords_gen]
  split
  · congr 1; omega
  · rw [← Gen.advance_succ']; congr 1; omega

/-- Every next state a command can have, guards included (R83 to R125, R130). -/
inductive Answer : Instr → State → State → Prop
  | notSeeded {i s} (hd : draws i = true) (hs : s.seeded = false) :
    Answer i s (s.withResponse ⟨.errNotSeeded, 0, []⟩)
  | badRange {i s} (hs : s.seeded = true) (hb : badRange i) :
    Answer i s (s.withResponse ⟨.errInvalidRange, 0, []⟩)
  | seed {v s} : Answer (.seed v) s ((seedExpand v s).withResponse ⟨.ok, 0, []⟩)
  | seedDefault {s} : Answer .seedDefault s ((seedExpand s.entropy s).withResponse ⟨.ok, 0, []⟩)
  | next {s} (hs : s.seeded = true) :
    Answer .next s ((s.withGen s.gen.step).withResponse ⟨.ok, zextWord (maskSign (s.gen.raw 0)), []⟩)
  | nextU {u k s} (hs : s.seeded = true) (hu : 0 < u) (hf : s.gen.FirstBelow (boundedLimit u.toNat) k) :
    Answer (.nextU u) s
      ((s.withGen (s.gen.advance (k + 1))).withResponse ⟨.ok, zextNat ((s.gen.raw k).toNat % u.toNat), []⟩)
  | nextLU {l u k s} (hs : s.seeded = true) (hu : l < u) (hf : s.gen.FirstBelow (boundedLimit (rangeWidth l u)) k) :
    Answer (.nextLU l u) s
      ((s.withGen (s.gen.advance (k + 1))).withResponse
        ⟨.ok, int32Data (l + ((s.gen.raw k).toNat % rangeWidth l u : Nat)), []⟩)
  | nextUint {s} (hs : s.seeded = true) :
    Answer .nextUint s ((s.withGen s.gen.step).withResponse ⟨.ok, zextWord (s.gen.raw 0), []⟩)
  | nextInt {s} (hs : s.seeded = true) :
    Answer .nextInt s ((s.withGen s.gen.step).withResponse ⟨.ok, zextWord (maskSign (s.gen.raw 0)), []⟩)
  | nextDouble {s} (hs : s.seeded = true) :
    Answer .nextDouble s ((s.withGen (s.gen.advance 2)).withResponse ⟨.ok, f64 (s.gen.attempt 0), []⟩)
  | nextDoubleNZ {k s} (hs : s.seeded = true) (hf : s.gen.FirstNonZero k) :
    Answer .nextDoubleNZ s
      ((s.withGen (s.gen.advance (2 * k + 2))).withResponse ⟨.ok, f64 (s.gen.attempt k), []⟩)
  | nextFloat {s} (hs : s.seeded = true) :
    Answer .nextFloat s ((s.withGen s.gen.step).withResponse ⟨.ok, zextWord (f32 (high24 (s.gen.raw 0))), []⟩)
  | nextBool {s} (hs : s.seeded = true) :
    Answer .nextBool s
      ((dropBit (refillBits s)).withResponse ⟨.ok, zextBit ((refillBits s).bitbuf.getLsbD 0), []⟩)
  | nextByte {s} (hs : s.seeded = true) :
    Answer .nextByte s
      ((dropByte (refillBytes s)).withResponse ⟨.ok, zextByte (byteOf (refillBytes s).bytebuf 0), []⟩)
  | nextBytes {len s} (hs : s.seeded = true) :
    Answer (.nextBytes len) s
      ((s.withGen (s.gen.advance ((len + 3) / 4))).withResponse ⟨.ok, 0, streamBytes len s.gen⟩)

/-- The inversion lemma of `exec`. -/
theorem exec_answer {i : Instr} {s t : State} (h : exec i s = .next t) : Answer i s t := by
  cases i with
  | seed v => cases (Host.Outcome.next.inj h); exact .seed
  | seedDefault => cases (Host.Outcome.next.inj h); exact .seedDefault
  | next =>
    rcases ifSeeded_next h with ⟨hs, h⟩ | ⟨hs, rfl⟩
    · cases (Host.Outcome.next.inj h); exact .next hs
    · exact .notSeeded rfl hs
  | nextInt =>
    rcases ifSeeded_next h with ⟨hs, h⟩ | ⟨hs, rfl⟩
    · cases (Host.Outcome.next.inj h); exact .nextInt hs
    · exact .notSeeded rfl hs
  | nextUint =>
    rcases ifSeeded_next h with ⟨hs, h⟩ | ⟨hs, rfl⟩
    · cases (Host.Outcome.next.inj h); exact .nextUint hs
    · exact .notSeeded rfl hs
  | nextDouble =>
    rcases ifSeeded_next h with ⟨hs, h⟩ | ⟨hs, rfl⟩
    · cases (Host.Outcome.next.inj h); exact .nextDouble hs
    · exact .notSeeded rfl hs
  | nextFloat =>
    rcases ifSeeded_next h with ⟨hs, h⟩ | ⟨hs, rfl⟩
    · cases (Host.Outcome.next.inj h); exact .nextFloat hs
    · exact .notSeeded rfl hs
  | nextBool =>
    rcases ifSeeded_next h with ⟨hs, h⟩ | ⟨hs, rfl⟩
    · cases (Host.Outcome.next.inj h); exact .nextBool hs
    · exact .notSeeded rfl hs
  | nextByte =>
    rcases ifSeeded_next h with ⟨hs, h⟩ | ⟨hs, rfl⟩
    · cases (Host.Outcome.next.inj h); exact .nextByte hs
    · exact .notSeeded rfl hs
  | nextBytes len =>
    rcases ifSeeded_next h with ⟨hs, h⟩ | ⟨hs, rfl⟩
    · rw [emit_gen, emitWords_gen] at h
      cases (Host.Outcome.next.inj h); exact .nextBytes hs
    · exact .notSeeded rfl hs
  | nextU u =>
    rcases ifSeeded_next h with ⟨hs, h⟩ | ⟨hs, rfl⟩
    · by_cases hb : emptyBelow u = true
      · rw [if_pos hb] at h; cases (Host.Outcome.next.inj h); exact .badRange hs ((emptyBelow_iff u).mp hb)
      · rw [if_neg hb] at h
        obtain ⟨j, hf, h⟩ := drawBounded_next h
        cases (Host.Outcome.next.inj h)
        rw [emptyBelow_iff] at hb
        exact .nextU hs (by omega) hf
    · exact .notSeeded rfl hs
  | nextLU l u =>
    rcases ifSeeded_next h with ⟨hs, h⟩ | ⟨hs, rfl⟩
    · by_cases hb : emptyBetween l u = true
      · rw [if_pos hb] at h; cases (Host.Outcome.next.inj h); exact .badRange hs ((emptyBetween_iff l u).mp hb)
      · rw [if_neg hb] at h
        obtain ⟨j, hf, h⟩ := drawBounded_next h
        cases (Host.Outcome.next.inj h)
        rw [emptyBetween_iff] at hb
        exact .nextLU hs (by omega) hf
    · exact .notSeeded rfl hs
  | nextDoubleNZ =>
    rcases ifSeeded_next h with ⟨hs, h⟩ | ⟨hs, rfl⟩
    · cases hn : nonZeroLoop Config.maxDraws s.gen with
      | none => simp [hn] at h
      | some p =>
        obtain ⟨k, hf, hm, hg⟩ := nonZeroLoop_some (m := p.1) (g' := p.2) hn
        rw [hn] at h
        simp only [hm, hg] at h
        cases (Host.Outcome.next.inj h)
        exact .nextDoubleNZ hs hf
    · exact .notSeeded rfl hs

/-- Once seeded, a command leaves the block seeded (R22). -/
theorem Answer.keeps_seeded {i : Instr} {s t : State} (h : Answer i s t) (hs : s.seeded = true) : t.seeded = true := by
  cases h with
  | seed => rfl
  | seedDefault => rfl
  | nextBool =>
    obtain ⟨g, b, c, hr⟩ := refillBits_frame s
    rw [hr]
    exact hs
  | nextByte =>
    obtain ⟨g, b, c, hr⟩ := refillBytes_frame s
    rw [hr]
    exact hs
  | _ => exact hs

/-- The inversion lemma of `accept`. -/
theorem accept_cases {c : CmdWord} {s t : State} (h : accept c s = .next t) :
    (∃ i, decode c = .ok i ∧ Answer i s t) ∨
      ((∀ i, decode c ≠ .ok i) ∧ t = s.withResponse ⟨.errIllegalCmd, 0, []⟩) := by
  unfold accept at h
  cases hd : decode c with
  | ok i => rw [hd] at h; exact .inl ⟨i, rfl, exec_answer h⟩
  | error e => rw [hd] at h; exact .inr ⟨by simp, (Host.Outcome.next.inj h).symm⟩

end Sys2Proof.Machine
end

