-- ==== Sys2Proof/Laws/PerInstr.lean ====
section
/-!
SUPPORT. Statements made per instruction. The family `TableRow`: the canonical encoding of a command carries the opcode of
its row of spec/opcode_table.json, has zeros in the fields its format does not use (R54), and selects the row under the
row's mask (R55).
-/

namespace Sys2Proof.Laws.TableRow

open Sys2Proof

/-- The row's mask covers bits 71:64 (R54). -/
def mask : CmdWord := 0xFF0000000000000000#72

/-- The row's match: its opcode times `2^64` (R55). -/
def rowMatch (i : Instr) : CmdWord := commandWord (opcode i) 0 0

/-- The canonical encoding's opcode field, unused fields and row. -/
def Statement (i : Instr) : Prop :=
  opField (encode i) = opcode i ∧
  ((format i).usesA = false → aField (encode i) = 0) ∧
  ((format i).usesB = false → bField (encode i) = 0) ∧
  encode i &&& mask = rowMatch i &&& mask

/-- Only the opcode field survives the mask. -/
theorem masked (op : Byte) (a b a' b' : Word) : commandWord op a b &&& mask = commandWord op a' b' &&& mask := by
  have hm : ∀ i, i < 64 → mask.getLsbD i = false := by decide
  apply BitVec.eq_of_getLsbD_eq
  intro i hi
  by_cases h : i < 64
  · simp [hm i h]
  · have hop : ∀ a b : Word, (commandWord op a b).getLsbD i = op.getLsbD (i - 32 - 32) := fun a b => by
      unfold commandWord
      rw [BitVec.getLsbD_append, if_neg (by omega), BitVec.getLsbD_append, if_neg (by omega)]
    rw [BitVec.getLsbD_and, BitVec.getLsbD_and, hop a b, hop a' b']

/-- The statement from its two field conditions. -/
theorem of_fields {i : Instr} (ha : (format i).usesA = false → fieldA i = 0)
    (hb : (format i).usesB = false → fieldB i = 0) : Statement i := by
  refine ⟨?_, fun h => ?_, fun h => ?_, masked _ _ _ _ _⟩
  · simp [encode]
  · simpa [encode] using ha h
  · simpa [encode] using hb h

theorem seed (v : DWord) : Statement (.seed v) :=
  of_fields (by simp [format, Format.usesA]) (by simp [format, Format.usesB])
theorem seedDefault : Statement .seedDefault := of_fields (fun _ => rfl) (fun _ => rfl)
theorem next : Statement .next := of_fields (fun _ => rfl) (fun _ => rfl)
theorem nextU (upper : Int) : Statement (.nextU upper) :=
  of_fields (by simp [format, Format.usesA]) (fun _ => rfl)
theorem nextLU (lower upper : Int) : Statement (.nextLU lower upper) :=
  of_fields (by simp [format, Format.usesA]) (by simp [format, Format.usesB])
theorem nextUint : Statement .nextUint := of_fields (fun _ => rfl) (fun _ => rfl)
theorem nextInt : Statement .nextInt := of_fields (fun _ => rfl) (fun _ => rfl)
theorem nextDouble : Statement .nextDouble := of_fields (fun _ => rfl) (fun _ => rfl)
theorem nextDoubleNZ : Statement .nextDoubleNZ := of_fields (fun _ => rfl) (fun _ => rfl)
theorem nextFloat : Statement .nextFloat := of_fields (fun _ => rfl) (fun _ => rfl)
theorem nextBool : Statement .nextBool := of_fields (fun _ => rfl) (fun _ => rfl)
theorem nextByte : Statement .nextByte := of_fields (fun _ => rfl) (fun _ => rfl)
theorem nextBytes (len : Nat) : Statement (.nextBytes len) :=
  of_fields (by simp [format, Format.usesA]) (fun _ => rfl)

end Sys2Proof.Laws.TableRow
end

