-- ==== Sys2Proof/Laws/Period.lean ====
section
/-!
SUPPORT. Powers of the step computed as polynomials modulo the annihilating polynomial, and the certificates behind the
full period of R74: the power `2^128 - 1` is the identity, for each prime factor `q` of `2^128 - 1` the power
`(2^128 - 1) / q` fixes no non-zero state, and the nine factors are prime.
-/

namespace Sys2Proof.Machine

/-- Multiplication by the variable, modulo `stepPoly`. This and the next two are written with the arithmetic the kernel
computes on numerals, since the certificates below are evaluated by it. -/
def polyShift (r : Nat) : Nat :=
  bif Nat.ble 0x80000000000000000000000000000000 r then Nat.xor (Nat.mul 2 r) stepPoly else Nat.mul 2 r

/-- Multiplication by the low `n` coefficients of `a`, modulo `stepPoly`. -/
def polyMul (n a b : Nat) : Nat :=
  Nat.rec (motive := fun _ => Nat → Nat) (fun _ => 0)
    (fun _ rest a =>
      bif Nat.beq (Nat.mod a 2) 1 then Nat.xor b (polyShift (rest (Nat.div a 2))) else polyShift (rest (Nat.div a 2)))
    n a

/-- The variable to the power of the low `n` bits of `e`, modulo `stepPoly`. -/
def polyPow (n e : Nat) : Nat :=
  Nat.rec (motive := fun _ => Nat → Nat) (fun _ => 1)
    (fun _ rest e =>
      bif Nat.beq (Nat.mod e 2) 1 then polyShift (polyMul 128 (rest (Nat.div e 2)) (rest (Nat.div e 2)))
      else polyMul 128 (rest (Nat.div e 2)) (rest (Nat.div e 2)))
    n e

theorem polyShift_eq (r : Nat) : polyShift r = if 2 ^ 127 ≤ r then (2 * r) ^^^ stepPoly else 2 * r := by
  unfold polyShift
  rw [Bool.cond_eq_ite]
  simp only [Nat.ble_eq]
  rfl

theorem polyMul_zero (a b : Nat) : polyMul 0 a b = 0 := rfl

theorem polyMul_succ (n a b : Nat) : polyMul (n + 1) a b =
    if a % 2 = 1 then b ^^^ polyShift (polyMul n (a / 2) b) else polyShift (polyMul n (a / 2) b) := by
  have : polyMul (n + 1) a b = bif Nat.beq (a % 2) 1 then b ^^^ polyShift (polyMul n (a / 2) b)
    else polyShift (polyMul n (a / 2) b) := rfl
  rw [this, Bool.cond_eq_ite]
  simp only [Nat.beq_eq]

theorem polyPow_zero (e : Nat) : polyPow 0 e = 1 := rfl

theorem polyPow_succ (n e : Nat) : polyPow (n + 1) e =
    if e % 2 = 1 then polyShift (polyMul 128 (polyPow n (e / 2)) (polyPow n (e / 2)))
    else polyMul 128 (polyPow n (e / 2)) (polyPow n (e / 2)) := by
  have : polyPow (n + 1) e = bif Nat.beq (e % 2) 1
    then polyShift (polyMul 128 (polyPow n (e / 2)) (polyPow n (e / 2)))
    else polyMul 128 (polyPow n (e / 2)) (polyPow n (e / 2)) := rfl
  rw [this, Bool.cond_eq_ite]
  simp only [Nat.beq_eq]

theorem polyShift_lt {r : Nat} (h : r < 2 ^ 128) : polyShift r < 2 ^ 128 := by
  rw [polyShift_eq]
  split
  · have hs : 2 * r = 2 ^ 128 + (2 * r - 2 ^ 128) := by omega
    apply Nat.lt_pow_two_of_testBit
    intro i hi
    rw [Nat.testBit_xor]
    by_cases h1 : i = 128
    · subst h1
      have a : (2 * r).testBit 128 = true := by
        rw [Nat.testBit_eq_decide_div_mod_eq]; simp; omega
      have b : stepPoly.testBit 128 = true := by decide +kernel
      simp [a, b]
    · have a : (2 * r).testBit i = false :=
        Nat.testBit_lt_two_pow (lt_of_lt_of_le (by omega : 2 * r < 2 ^ 129) (Nat.pow_le_pow_right (by omega) (by omega)))
      have b : stepPoly.testBit i = false :=
        Nat.testBit_lt_two_pow (lt_of_lt_of_le (by decide +kernel : stepPoly < 2 ^ 129)
          (Nat.pow_le_pow_right (by omega) (by omega)))
      simp [a, b]
  · omega

theorem polyMul_lt (n a : Nat) {b : Nat} (h : b < 2 ^ 128) : polyMul n a b < 2 ^ 128 := by
  induction n generalizing a with
  | zero => simp [polyMul_zero]
  | succ n ih =>
    rw [polyMul_succ]
    split
    · exact Nat.xor_lt_two_pow h (polyShift_lt (ih _))
    · exact polyShift_lt (ih _)

theorem polyPow_lt (n e : Nat) : polyPow n e < 2 ^ 128 := by
  induction n generalizing e with
  | zero => simp [polyPow_zero]
  | succ n ih =>
    rw [polyPow_succ]
    split
    · exact polyShift_lt (polyMul_lt _ _ (ih _))
    · exact polyMul_lt _ _ (ih _)

theorem comb_double (n r : Nat) (g : Gen) : Gen.comb (n + 1) (2 * r) g = Gen.comb n r g.step := by
  rw [Gen.comb, if_neg (by omega), Nat.mul_div_cancel_left _ (by omega)]

theorem comb_polyShift {r : Nat} (h : r < 2 ^ 128) (g : Gen) :
    Gen.comb 128 (polyShift r) g = Gen.comb 128 r g.step := by
  rw [← Gen.comb_succ_of_lt 128 (polyShift r) g (polyShift_lt h), ← comb_double]
  rw [polyShift_eq]
  split
  · rw [Gen.comb_xor, stepPoly_annihilates, Gen.xor_zero]
  · rfl

theorem comb_polyMul (n a : Nat) {b : Nat} (h : b < 2 ^ 128) (g : Gen) :
    Gen.comb 128 (polyMul n a b) g = Gen.comb n a (Gen.comb 128 b g) := by
  induction n generalizing a g with
  | zero => rw [polyMul_zero, Gen.comb_no_terms, Gen.comb]
  | succ n ih =>
    rw [polyMul_succ, Gen.comb_succ n a, ← Gen.comb_step, ← ih, ← comb_polyShift (polyMul_lt _ _ h)]
    split
    · rw [Gen.comb_xor]
    · rfl

/-- The polynomial power acts as that many steps. -/
theorem comb_polyPow (n e : Nat) (h : e < 2 ^ n) (g : Gen) : Gen.comb 128 (polyPow n e) g = g.advance e := by
  induction n generalizing e g with
  | zero =>
    have : e = 0 := by simpa using h
    subst this
    exact Gen.comb_one 127 g
  | succ n ih =>
    have hd : e / 2 < 2 ^ n := by rw [Nat.pow_succ] at h; omega
    rw [polyPow_succ]
    split
    · rw [comb_polyShift (polyMul_lt _ _ (polyPow_lt _ _)), comb_polyMul _ _ (polyPow_lt _ _), ih _ hd, ih _ hd,
        ← Gen.advance_add, ← Gen.advance_succ]
      congr 1; omega
    · rw [comb_polyMul _ _ (polyPow_lt _ _), ih _ hd, ih _ hd, ← Gen.advance_add]
      congr 1; omega

/-! ## Certificates -/

/-- The variable to the power `2^128 - 1` is 1. -/
theorem polyPow_period : polyPow 128 (2 ^ 128 - 1) = 1 := by decide +kernel

/-- `u` is an inverse of `X^e - 1`: then no non-zero state returns to itself after `e` steps. -/
def returnInverse (e u : Nat) : Bool := polyMul 128 u (polyPow 128 e ^^^ 1) == 1

theorem no_return_of_inverse {e u : Nat} (he : e < 2 ^ 128) (hu : returnInverse e u = true) {g : Gen}
    (h : g.advance e = g) : g = Gen.zero := by
  have hlt : polyPow 128 e ^^^ 1 < 2 ^ 128 := Nat.xor_lt_two_pow (polyPow_lt _ _) (by omega)
  have h1 := comb_polyMul 128 u hlt g
  rw [beq_iff_eq.mp hu, Gen.comb_one, Gen.comb_xor, comb_polyPow _ _ he, h, Gen.comb_one, Gen.xor_self, Gen.comb_of_zero] at h1
  exact h1

/-- Each prime factor of `2^128 - 1` (R74) with an inverse for the power `(2^128 - 1) / q`. -/
def periodCertificates : List (Nat × Nat) :=
  [(3, 0x64c67953816627d8e1c03fd390fef03c),
   (5, 0x7232a2b2d2cd53a867f6d94da8f0e71f),
   (17, 0xd92cfed57f9e066f93380aec55c55bd2),
   (257, 0x69811d7e2688b56f2a355778589f965c),
   (641, 0xcce7c6e13d991eee18d029420f46ad66),
   (65537, 0xebffb80a9dc68f285f9da04a028d3ac),
   (274177, 0x5cb6e0cad66a1311fb7fd060f21d1ed1),
   (6700417, 0x4909a189c67b7953b575a8e2c60df884),
   (67280421310721, 0x35c6d222f6580cd92fd392c181af582b)]

theorem periodCertificates_ok :
    ∀ c ∈ periodCertificates, returnInverse ((2 ^ 128 - 1) / c.1) c.2 = true := by
  decide +kernel

theorem periodCertificates_product : (periodCertificates.map (·.1)).prod = 2 ^ 128 - 1 := by decide +kernel

/-! ## The factors are prime -/

/-- `a` to the power of the low `n` bits of `e`, modulo `m`. -/
def powMod (m a : Nat) : Nat → Nat → Nat
  | 0, _ => 1
  | n + 1, e =>
    if e % 2 = 1 then powMod m a n (e / 2) * powMod m a n (e / 2) * a % m
    else powMod m a n (e / 2) * powMod m a n (e / 2) % m

theorem powMod_eq (m a n e : Nat) (h : e < 2 ^ n) : (powMod m a n e : ZMod m) = (a : ZMod m) ^ e := by
  induction n generalizing e with
  | zero =>
    have : e = 0 := by simpa using h
    simp [this, powMod]
  | succ n ih =>
    have hd : e / 2 < 2 ^ n := by rw [Nat.pow_succ] at h; omega
    rw [powMod]
    split
    · rw [ZMod.natCast_mod, Nat.cast_mul, Nat.cast_mul, ih _ hd, ← pow_add, ← pow_succ]
      congr 1; omega
    · rw [ZMod.natCast_mod, Nat.cast_mul, ih _ hd, ← pow_add]
      congr 1; omega

/-- The prime factors of `67280421310720`. -/
theorem mem_factors {q : Nat} (hq : q.Prime) (hd : q ∣ 67280421310720) : q ∈ [2, 5, 47, 373, 2998279] := by
  rw [show 67280421310720 = 2 ^ 8 * 5 * 47 * 373 * 2998279 by norm_num] at hd
  simp only [hq.dvd_mul] at hd
  have two : Nat.Prime 2 := by norm_num
  have five : Nat.Prime 5 := by norm_num
  have p47 : Nat.Prime 47 := by norm_num
  have p373 : Nat.Prime 373 := by norm_num
  have p2998279 : Nat.Prime 2998279 := by norm_num
  rcases hd with (((hd | hd) | hd) | hd) | hd
  · simp [(Nat.prime_dvd_prime_iff_eq hq two).mp (hq.dvd_of_dvd_pow hd)]
  · simp [(Nat.prime_dvd_prime_iff_eq hq five).mp hd]
  · simp [(Nat.prime_dvd_prime_iff_eq hq p47).mp hd]
  · simp [(Nat.prime_dvd_prime_iff_eq hq p373).mp hd]
  · simp [(Nat.prime_dvd_prime_iff_eq hq p2998279).mp hd]

/-- The largest factor is prime: 3 generates the units, and the prime factors of `q - 1` are 2, 5, 47, 373 and 2998279. -/
theorem prime_67280421310721 : Nat.Prime 67280421310721 := by
  have hpow : powMod 67280421310721 3 46 67280421310720 = 1 := by decide +kernel
  have hroots : ∀ q ∈ [2, 5, 47, 373, 2998279],
      powMod 67280421310721 3 46 (67280421310720 / q) < 67280421310721 ∧
      powMod 67280421310721 3 46 (67280421310720 / q) ≠ 1 := by decide +kernel
  apply lucas_primality 67280421310721 (3 : ZMod 67280421310721)
  · have := powMod_eq 67280421310721 3 46 67280421310720 (by norm_num)
    rw [hpow, Nat.cast_one, Nat.cast_ofNat] at this
    exact this.symm
  · intro q hq hd e
    obtain ⟨hlt, hne⟩ := hroots q (mem_factors hq hd)
    have hs : 67280421310720 / q < 2 ^ 46 := lt_of_le_of_lt (Nat.div_le_self _ _) (by norm_num)
    have h := powMod_eq 67280421310721 3 46 (67280421310720 / q) hs
    have h1 : ((powMod 67280421310721 3 46 (67280421310720 / q) : ℕ) : ZMod 67280421310721) =
        ((1 : ℕ) : ZMod 67280421310721) := by
      rw [h, Nat.cast_one, Nat.cast_ofNat]
      exact e
    rw [ZMod.natCast_eq_natCast_iff', Nat.mod_eq_of_lt hlt] at h1
    exact hne h1

theorem periodCertificates_prime : ∀ c ∈ periodCertificates, Nat.Prime c.1 := by
  have h := prime_67280421310721
  simp only [periodCertificates, List.mem_cons, List.not_mem_nil, or_false, forall_eq_or_imp, forall_eq]
  refine ⟨?_, ?_, ?_, ?_, ?_, ?_, ?_, ?_, h⟩ <;> norm_num

end Sys2Proof.Machine
end

