-- ==== Sys2Proof/Laws/Ports.lean ====
section
/-!
SUPPORT. The clock edge: what a step is when the host presents a command the block accepts, and every way a step can end in
a next state.
-/

namespace Sys2Proof.Machine

/-- With no edge given the state stays (log entry 7). -/
theorem step_of_no_edge {s : State} (h : s.edges = []) : step s = .next s := by
  rw [step, h]

theorem step_of_edge {s : State} {e : Edge} {rest : List Edge} (h : s.edges = e :: rest) :
    step s = onEdge e { s with edges := rest } := by
  rw [step, h]

/-- What the host did where an edge is refused (R152, U7). -/
theorem hostRefusal_some {e : Edge} {s : State} {r : Refusal} (h : hostRefusal e s = some r) :
    e.cmdValid = true ∧
      ((r = .neverReset ∧ s.resets = 0) ∨
        (r = .unstableCommand ∧ s.resets ≠ 0 ∧ ∃ c, s.held = some c ∧ e.cmd ≠ c)) := by
  unfold hostRefusal at h
  by_cases h0 : (e.cmdValid && decide (s.resets = 0)) = true
  · rw [if_pos h0] at h
    simp only [Bool.and_eq_true, decide_eq_true_eq] at h0
    exact ⟨h0.1, .inl ⟨(Option.some.inj h).symm, h0.2⟩⟩
  · rw [if_neg h0] at h
    by_cases hu : unstable e s = true
    · rw [if_pos hu] at h
      unfold unstable at hu
      cases hh : s.held with
      | none => simp [hh] at hu
      | some c =>
        simp only [hh, Bool.and_eq_true, decide_eq_true_eq] at hu
        refine ⟨hu.1, .inr ⟨(Option.some.inj h).symm, fun hr => h0 (by simp [hu.1, hr]), c, rfl, hu.2⟩⟩
    · rw [if_neg hu] at h
      exact absurd h (by simp)

/-- Nothing presented, nothing refused. -/
theorem hostRefusal_of_not_presented {e : Edge} (h : e.cmdValid = false) (s : State) : hostRefusal e s = none := by
  cases hr : hostRefusal e s with
  | none => rfl
  | some r => exact absurd (hostRefusal_some hr).1 (by simp [h])

/-- The accepting edge runs the word. -/
theorem step_of_accepts {s : State} {e : Edge} {rest : List Edge} (h : s.Accepts e rest) :
    step s = accept e.cmd (s.atAccept e rest) := by
  obtain ⟨h1, h2, h3, h4, h5⟩ := h
  have hu : hostRefusal e { s with edges := rest } = none := h5
  have hr : cmdReady e.rst { s with edges := rest } = true := by simp [cmdReady, h2, h4]
  rw [step_of_edge h1, onEdge, if_neg (by simp [h2]), hu]
  dsimp only
  rw [if_pos hr, if_pos h3]
  rfl

/-- Every next state of a step. -/
theorem step_cases {s t : State} (h : step s = .next t) :
    (s.edges = [] ∧ t = s) ∨
    ∃ e rest, s.edges = e :: rest ∧
      ((e.rst = true ∧ t = sampleInputs e e.presented (resetEvent { s with edges := rest })) ∨
       (s.Accepts e rest ∧ accept e.cmd (s.atAccept e rest) = .next t) ∨
       (e.rst = false ∧ hostRefusal e s = none ∧ s.rsp = none ∧ e.cmdValid = false ∧
         t = sampleInputs e none { s with edges := rest }) ∨
       (e.rst = false ∧ hostRefusal e s = none ∧ s.rsp ≠ none ∧ e.rspReady = true ∧
         t = deliver (sampleInputs e e.presented { s with edges := rest })) ∨
       (e.rst = false ∧ hostRefusal e s = none ∧ s.rsp ≠ none ∧ e.rspReady = false ∧
         t = sampleInputs e e.presented { s with edges := rest })) := by
  cases he : s.edges with
  | nil =>
    rw [step_of_no_edge he] at h
    exact .inl ⟨rfl, (Host.Outcome.next.inj h).symm⟩
  | cons e rest =>
    refine .inr ⟨e, rest, rfl, ?_⟩
    rw [step_of_edge he, onEdge] at h
    by_cases hr : e.rst = true
    · rw [if_pos hr] at h
      exact .inl ⟨hr, (Host.Outcome.next.inj h).symm⟩
    · rw [if_neg hr] at h
      have hr : e.rst = false := by simpa using hr
      cases hq : hostRefusal e { s with edges := rest } with
      | some r => rw [hq] at h; exact absurd h (by simp)
      | none =>
        rw [hq] at h
        dsimp only at h
        have hu : hostRefusal e s = none := hq
        by_cases hc : cmdReady e.rst { s with edges := rest } = true
        · rw [if_pos hc] at h
          have hn : s.rsp = none := by simpa [cmdReady, hr] using hc
          by_cases hv : e.cmdValid = true
          · rw [if_pos hv] at h
            exact .inr (.inl ⟨⟨he, hr, hv, hn, hu⟩, h⟩)
          · rw [if_neg hv] at h
            exact .inr (.inr (.inl ⟨hr, hu, hn, by simpa using hv, (Host.Outcome.next.inj h).symm⟩))
        · rw [if_neg hc] at h
          have hn : s.rsp ≠ none := by
            intro hn; exact hc (by simp [cmdReady, hr, hn])
          by_cases hy : e.rspReady = true
          · rw [if_pos hy] at h
            exact .inr (.inr (.inr (.inl ⟨hr, hu, hn, hy, (Host.Outcome.next.inj h).symm⟩)))
          · rw [if_neg hy] at h
            exact .inr (.inr (.inr (.inr ⟨hr, hu, hn, by simpa using hy, (Host.Outcome.next.inj h).symm⟩)))

end Sys2Proof.Machine
end

