-- ==== Sys2Proof/Tests/Slice0.lean ====
section
/-!
SUPPORT. The model's own tests: ill-formed commands, the decoder on words of the spec, one or two results per command from
the vectors of 95_test_vectors.md (section numbers in the comments), ports and assembler, and for every statement with
hypotheses a witness that meets them.
-/

namespace Sys2Proof.Tests

open Sys2Proof Sys2Proof.Machine

/-! ## WellFormed refuses -/

theorem test_wf_refuses_nextU_above : Instr.wellFormed (.nextU 2147483648) = false := by decide
theorem test_wf_refuses_nextU_below : Instr.wellFormed (.nextU (-2147483649)) = false := by decide
theorem test_wf_refuses_nextLU_lower : Instr.wellFormed (.nextLU (-2147483649) 5) = false := by decide
theorem test_wf_refuses_nextLU_upper : Instr.wellFormed (.nextLU 5 2147483648) = false := by decide
theorem test_wf_refuses_nextBytes : Instr.wellFormed (.nextBytes 4294967296) = false := by decide

/-! ## Decoding: words of sections 5, 7 and 8 -/

theorem test_decode_seed : decode 0x010123456789ABCDEF#72 = .ok (.seed 0x0123456789ABCDEF#64) := by decide
theorem test_decode_seedDefault : decode 0x020000000000000000#72 = .ok (.seedDefault) := by decide
theorem test_decode_next : decode 0x100000000000000000#72 = .ok (.next) := by decide
theorem test_decode_nextU : decode 0x117FFFFFFF00000000#72 = .ok (.nextU 2147483647) := by decide
theorem test_decode_nextU_negative : decode 0x118000000000000000#72 = .ok (.nextU (-2147483648)) := by decide
theorem test_decode_nextLU : decode 0x12BFFFD8F040002710#72 = .ok (.nextLU (-1073751824) 1073751824) := by decide
theorem test_decode_nextUint : decode 0x130000000000000000#72 = .ok (.nextUint) := by decide
theorem test_decode_nextInt : decode 0x140000000000000000#72 = .ok (.nextInt) := by decide
theorem test_decode_nextDouble : decode 0x150000000000000000#72 = .ok (.nextDouble) := by decide
theorem test_decode_nextDoubleNZ : decode 0x160000000000000000#72 = .ok (.nextDoubleNZ) := by decide
theorem test_decode_nextFloat : decode 0x170000000000000000#72 = .ok (.nextFloat) := by decide
theorem test_decode_nextBool : decode 0x180000000000000000#72 = .ok (.nextBool) := by decide
theorem test_decode_nextByte : decode 0x190000000000000000#72 = .ok (.nextByte) := by decide
theorem test_decode_nextBytes : decode 0x1AFFFFFFFF00000000#72 = .ok (.nextBytes 4294967295) := by decide

/-- Bit by bit from R50 and R51: `op` 0001_0010, `a` the 32 bits of -5, `b` the 32 bits of 5. -/
theorem test_decode_bits :
    decode 0b000100101111111111111111111111111111101100000000000000000000000000000101#72 = .ok (.nextLU (-5) 5) := by
  decide

/-- R56: the reserved values at the edges of the map. -/
theorem test_decode_reserved :
    ([0x00, 0x03, 0x0F, 0x1B, 0xFF] : List Byte).all (fun op =>
      decide (decode (commandWord op 0x12345678#32 0x9ABCDEF0#32) = .error (.reservedOpcode op))) = true := by decide

/-! ## Results: 95_test_vectors.md -/

/-- The block after `SEED v`, its host's side as after reset (section 3.2). -/
def seededWith (v : DWord) : State := seedExpand v State.reset

/-- The answer of a command. -/
def answer : Result → Option Response
  | .next t => t.rsp
  | .fault _ => none
  | .refused _ => none

/-- The nine registers after a command. -/
def registers : Result → Option Nine
  | .next t => some t.nine
  | .fault _ => none
  | .refused _ => none

/-- An `OK` answer without bytes. -/
def ok (data : DWord) : Option Response := some { status := .ok, data := data, bytes := [] }

/-- An error answer (R57). -/
def err (s : Status) : Option Response := some { status := s, data := 0, bytes := [] }

/-- The state whose nine registers are listed, its host's side as after reset. -/
def blockWith (x y z w bitbuf : Word) (bitcnt : BitVec 6) (bytebuf : Word) (bytecnt : BitVec 3) : State :=
  { State.reset with
    gen := { x := x, y := y, z := z, w := w }, seeded := true
    bitbuf := bitbuf, bitcnt := bitcnt, bytebuf := bytebuf, bytecnt := bytecnt }

/-- Section 3.1, row 8. -/
theorem test_step_row8 :
    Gen.step ⟨0x12345678#32, 0x9ABCDEF0#32, 0x0FEDCBA9#32, 0x87654321#32⟩ =
      ⟨0x9ABCDEF0#32, 0x0FEDCBA9#32, 0x87654321#32, 0x37524223#32⟩ := by decide

/-- Section 3.1, row 5: the left shift truncates. -/
theorem test_step_row5 : Gen.step ⟨0x80000000#32, 0, 0, 0⟩ = ⟨0, 0, 0, 0x80800000#32⟩ := by decide

/-- Section 3.2. -/
theorem test_seed : (seededWith 0x0123456789ABCDEF#64).gen = ⟨0x89ABCDEF#32, 0x3314CAA0#32, 0xD55F8767#32, 0x104AA1AD#32⟩ := by
  decide

/-- Section 3.2: seed 0 is remapped. -/
theorem test_seed_zero : seedWords 0 = ⟨0x7F4A7C15#32, 0xAC00F67E#32, 0xD55F8767#32, 0x104AA1AD#32⟩ := by decide

/-- Section 8, P6 lines 5 and 6. -/
theorem test_seedDefault :
    (registers (exec .seedDefault { State.reset with entropy := 0x2A#64, bitcnt := 3, bitbuf := 5 })).map
        (fun n => (n.gen, n.seeded, n.bitbuf, n.bitcnt)) =
      some (⟨0x2A#32, 0x32378FC7#32, 0xD55F8767#32, 0x104AA1AD#32⟩, true, 0, 0) := by decide

/-- Section 5.1, after the second word: the sign bit is masked. -/
theorem test_next : answer (exec .next (blockWith 0x32378FC7#32 0xD55F8767#32 0x104AA1AD#32 0x104AABAD#32 0 0 0 0)) =
    ok 0x1E8D57D4#64 := by decide

/-- Section 8, P1 line 1: not seeded. -/
theorem test_next_not_seeded : answer (exec .next State.reset) = err .errNotSeeded := by decide

/-- Section 5.1. -/
theorem test_nextU : answer (exec (.nextU 10) (seededWith 1)) = ok 9 := by decide +kernel

/-- Section 8, P2 line 5: a rejected word. -/
theorem test_nextU_rejects :
    let r := exec (.nextU 1610612736) (blockWith 0x104AA1AD#32 0x104AABAD#32 0x9E8D57D4#32 0xB7C09FDD#32 0 0 0 0)
    answer r = ok 0x5790CD77#64 ∧
      (registers r).map (fun n => n.gen) = some ⟨0x9E8D57D4#32, 0xB7C09FDD#32, 0xF2C20741#32, 0xB790CD77#32⟩ := by
  decide +kernel

/-- Section 8, P2 line 9: four rejected words, and a negative result with bits 63:32 zero. -/
theorem test_nextLU_rejects :
    answer (exec (.nextLU (-2147483648) 1)
      (blockWith 0x32378FC7#32 0xD55F8767#32 0x104AA1AD#32 0x104AABAD#32 0 0 0 0)) = ok 0xC3571FA6#64 := by
  decide +kernel

/-- Section 5.1: the empty range. -/
theorem test_nextLU_empty : answer (exec (.nextLU 2147483647 (-2147483648)) (seededWith 1)) = err .errInvalidRange := by
  decide +kernel

/-- Section 5.1. -/
theorem test_nextUint : answer (exec .nextUint (seededWith 1)) = ok 0x104AABAD#64 := by decide

/-- Section 8, P1 line 7. -/
theorem test_nextInt :
    answer (exec .nextInt (blockWith 0x104AABAD#32 0x9E8D57D4#32 0xB7C09FDD#32 0xF2C20741#32 0 0 0 0)) =
      ok 0x3790CD77#64 := by decide

/-- Section 5.5. -/
theorem test_nextDouble : answer (exec .nextDouble (seededWith 1)) = ok 0x3FB04AABB3D1AAF8#64 := by decide +kernel

/-- Section 5.5: 0.0 exactly. -/
theorem test_nextDouble_zero : answer (exec .nextDouble (seededWith 0x3A368FE79710E942#64)) = ok 0 := by decide +kernel

/-- Section 5.5: one zero attempt, four words. -/
theorem test_nextDoubleNZ_redraws :
    let r := exec .nextDoubleNZ (seededWith 0x3A368FE79710E942#64)
    answer r = ok 0x3FC4A6EDF6C4F508#64 ∧
      (registers r).map (fun n => n.gen) = some ⟨0x1F#32, 0x3F#32, 0x294DDBE7#32, 0x6C4F50AA#32⟩ := by
  decide +kernel

/-- Section 5.5. -/
theorem test_nextDoubleNZ : answer (exec .nextDoubleNZ (seededWith 1)) = ok 0x3FB04AABB3D1AAF8#64 := by decide +kernel

/-- Section 5.5. -/
theorem test_nextFloat : answer (exec .nextFloat (seededWith 1)) = ok 0x3D825558#64 := by decide +kernel

/-- Section 5.5: 0.0 exactly. -/
theorem test_nextFloat_zero : answer (exec .nextFloat (seededWith 0x3A368FE79710E942#64)) = ok 0 := by decide +kernel

/-- Section 5.2, result 33: an empty cache draws `0x9E8D57D4`. -/
theorem test_nextBool_draws :
    let r := exec .nextBool (blockWith 0x32378FC7#32 0xD55F8767#32 0x104AA1AD#32 0x104AABAD#32 0 0 0 0)
    answer r = ok 0 ∧ (registers r).map (fun n => (n.gen.w, n.bitbuf, n.bitcnt)) =
      some (0x9E8D57D4#32, 0x4F46ABEA#32, 31) := by decide

/-- Section 5.2, result 34: from the cache, `bitbuf = 0x27A355F5` and `bitcnt = 30` afterwards. -/
theorem test_nextBool_cached :
    let r := exec .nextBool (blockWith 0xD55F8767#32 0x104AA1AD#32 0x104AABAD#32 0x9E8D57D4#32 0x4F46ABEA#32 31 0 0)
    answer r = ok 0 ∧ (registers r).map (fun n => (n.gen.w, n.bitbuf, n.bitcnt)) =
      some (0x9E8D57D4#32, 0x27A355F5#32, 30) := by decide

/-- Section 5.3, result 9: `DD`, then `bytebuf = 0x00B7C09F` and `bytecnt = 3`. -/
theorem test_nextByte_draws :
    let r := exec .nextByte (blockWith 0xD55F8767#32 0x104AA1AD#32 0x104AABAD#32 0x9E8D57D4#32 0 0 0 0)
    answer r = ok 0xDD#64 ∧ (registers r).map (fun n => (n.gen.w, n.bytebuf, n.bytecnt)) =
      some (0xB7C09FDD#32, 0x00B7C09F#32, 3) := by decide

/-- Section 8, P4 line 8: `8D` from the cache, then `bytebuf = 0x0000009E` and `bytecnt = 1`. -/
theorem test_nextByte_cached :
    let r := exec .nextByte (blockWith 0x9E8D57D4#32 0xB7C09FDD#32 0xF2C20741#32 0xB790CD77#32 0 0 0x9E8D#32 2)
    answer r = ok 0x8D#64 ∧ (registers r).map (fun n => (n.gen.w, n.bytebuf, n.bytecnt)) =
      some (0xB790CD77#32, 0x9E#32, 1) := by decide

/-- Section 5.4: a tail of three bytes. -/
theorem test_nextBytes_tail :
    answer (exec (.nextBytes 7) (seededWith 1)) =
      some { status := .ok, data := 0, bytes := [0xAD, 0xAB, 0x4A, 0x10, 0xD4, 0x57, 0x8D] } := by decide

/-- Section 8, P4 line 9: no byte, no word. -/
theorem test_nextBytes_none :
    let r := exec (.nextBytes 0) (seededWith 1)
    answer r = ok 0 ∧ (registers r).map (fun n => n.gen) = some (seedWords 1) := by decide

/-- Section 4.1. -/
theorem test_limit :
    [1, 3, 10, 0x7FFFFFFF, 0x80000001, 0xFFFFFFFF].map boundedLimit =
      [0x100000000, 0xFFFFFFFF, 0xFFFFFFFA, 0xFFFFFFFE, 0x80000001, 0xFFFFFFFF] := by decide

/-- Section 5.5. -/
theorem test_f64 :
    [0, 1, 3, 2 ^ 26 - 1, 2 ^ 52, 2 ^ 53 - 1].map f64 =
      [0, 0x3CA0000000000000#64, 0x3CB8000000000000#64, 0x3E3FFFFFF8000000#64, 0x3FE0000000000000#64,
       0x3FEFFFFFFFFFFFFF#64] := by decide +kernel

/-- Section 5.5. -/
theorem test_f32 :
    [0, 1, 3, 2 ^ 23, 2 ^ 24 - 1].map f32 =
      [0, 0x33800000#32, 0x34400000#32, 0x3F000000#32, 0x3F7FFFFF#32] := by decide +kernel

/-! ## Ports and assembler -/

/-- The state in which the next edge is `e`. -/
def facing (e : Edge) (s : State) : State := { s with edges := [e] }

/-- An edge at which the host takes a beat. -/
def takeEdge : Edge := { rst := false, cmdValid := false, cmd := 0, entropy := 0, rspReady := true }

/-- An edge at which the host presents `NEXT_UINT` and does not take a beat. -/
def drawEdge : Edge := presentEdge 0x130000000000000000#72 0

/-- An edge at which the host resets and presents a command. -/
def resetEdge : Edge := { rst := true, cmdValid := true, cmd := 0x130000000000000000#72, entropy := 0, rspReady := true }

/-- A block that holds a response of two bytes. -/
def busy : State := { seededWith 1 with rsp := some { status := .ok, data := 0, bytes := [0xAD, 0xAB] } }

/-- What a step leaves on the response port, and the beats taken. -/
def portAfter : Result → Option (Option Response × List Beat)
  | .next t => some (t.rsp, t.received)
  | .fault _ => none
  | .refused _ => none

/-- R31, R159: a busy block accepts no command and holds its beat. -/
theorem test_busy_holds : portAfter (step (facing drawEdge busy)) = some (busy.rsp, []) := by decide

/-- R58: a data beat. -/
theorem test_data_beat : portAfter (step (facing takeEdge busy)) =
    some (some { status := .ok, data := 0, bytes := [0xAB] }, [{ last := false, status := 0, data := 0xAD#64 }]) := by
  decide

/-- R150: reset wins over the command and the beat. -/
theorem test_reset_wins : portAfter (step (facing resetEdge busy)) = some (none, []) := by decide

/-- The refusal a step ends in. -/
def refusal : Result → Option Refusal
  | .next _ => none
  | .fault _ => none
  | .refused r => some r

/-- U7: another word than the one presented before. -/
theorem test_unstable :
    refusal (step (facing drawEdge { busy with held := some 0x100000000000000000#72 })) = some .unstableCommand := by
  decide

/-- R152: a command before the first reset event. -/
theorem test_never_reset : refusal (step (facing drawEdge { State.reset with resets := 0 })) = some .neverReset := by decide

/-- R60's own example: `NEXT_LU -5, 5` is `0x12_FFFFFFFB_00000005`. -/
theorem test_asm_nextLU :
    Asm.parseLine ['N', 'E', 'X', 'T', '_', 'L', 'U', ' ', '-', '5', ',', ' ', '5'] = some [.command (.nextLU (-5) 5)] ∧
      encode (.nextLU (-5) 5) = 0x12FFFFFFFB00000005#72 := by decide

/-- R60: `NEXT_U 0` is well-formed, an operand outside its type is rejected. -/
theorem test_asm_range :
    Asm.parseLine ['N', 'E', 'X', 'T', '_', 'U', ' ', '0'] = some [.command (.nextU 0)] ∧
      Asm.parseLine ['N', 'E', 'X', 'T', '_', 'U', ' ', '2', '1', '4', '7', '4', '8', '3', '6', '4', '8'] = none := by
  decide

/-- R61: `.word 0xFF_12345678_9ABCDEF0` (section 8, P3 line 8), and a comment. -/
theorem test_asm_word :
    Asm.parseLine ['.', 'w', 'o', 'r', 'd', ' ', '0', 'x', 'F', 'F', '_', '1', '2', '3', '4', '5', '6', '7', '8', '_',
        '9', 'A', 'B', 'C', 'D', 'E', 'F', '0', ' ', ';', 'x'] = some [.word 0xFF123456789ABCDEF0#72] := by decide

/-- R61: `SEED32 1` is `SEED 1`. -/
theorem test_asm_seed32 :
    Asm.parseLine ['S', 'E', 'E', 'D', '3', '2', ' ', '1'] = some [.command (.seed 1)] := by decide

/-! ## Witnesses: each meets the hypotheses of the statement it is named after -/

/-- The block as the host's next edge finds it, ready for a command. -/
def ready (e : Edge) : State := facing e (seededWith 1)

theorem test_witness_DecodeOfEncodeIsTheInstruction :
    ([.nextLU (-2147483648) 2147483647, .nextBytes 4294967295, .nextU (-1), .seed 0] : List Instr).all
      (fun i => i.wellFormed) = true := by decide

theorem test_witness_DecodedFieldsAreTheWordsFields : decode 0x110000000AFFFFFFFF#72 = .ok (.nextU 10) := by decide

theorem test_witness_UnusedOperandFieldsAreIgnored :
    let c := 0x110000000AFFFFFFFF#72
    let c' := 0x110000000A00000000#72
    opField c = opField c' ∧ ∀ i, decode c = .ok i →
      ((format i).usesA = true → aField c = aField c') ∧ ((format i).usesB = true → bField c = bField c') := by
  refine ⟨by decide, fun i h => ?_⟩
  rw [test_witness_DecodedFieldsAreTheWordsFields] at h
  cases h
  exact ⟨fun _ => by decide, fun h => absurd h (by decide)⟩

theorem test_witness_ReservedOpcodesAreIllegal :
    (∀ i, decode (commandWord 0x1B 5 6) ≠ .ok i) ∧
      (ready (presentEdge (commandWord 0x1B 5 6) 0)).Accepts (presentEdge (commandWord 0x1B 5 6) 0) [] := by
  have h : decode (commandWord 0x1B 5 6) = .error (.reservedOpcode 0x1B) := by decide
  refine ⟨fun i => by rw [h]; simp, ?_⟩
  decide

theorem test_witness_AssembledCommandsDecodeBack :
    Asm.parseLine ['N', 'E', 'X', 'T', '_', 'U', ' ', '1', '0'] = some [.command (.nextU 10)] := by decide

theorem test_witness_ZeroStateIsAnUnreachableFixedPoint : seedWords 1 ≠ Gen.zero := by decide

theorem test_witness_NonZeroStatesFormOneFullCycle :
    seedWords 1 ≠ Gen.zero ∧ (0 < 1 ∧ 1 < 2 ^ 128 - 1) ∧ (0 < 2 ^ 128 - 2 ∧ 2 ^ 128 - 2 < 2 ^ 128 - 1) ∧
      seedWords 2 ≠ Gen.zero := by decide

theorem test_witness_NonZeroRawWordsAreEquallyOftenAndZeroOnceLess : seedWords 1 ≠ Gen.zero ∧ (0 : Word) = 0 ∧ (1 : Word) ≠ 0 := by decide

theorem test_witness_SeedDefaultUsesTheEntropyPort :
    let e := presentEdge (commandWord 0x02 7 8) 0x2A
    (ready e).Accepts e [] ∧ e.cmd = commandWord 0x02#8 7 8 := by decide

theorem test_witness_SeedDeterminesEverythingAfterIt :
    ∀ p ∈ ([(7, .nextU 0), (8, .seedDefault), (9, .nextLU (-5) 5)] : List (DWord × Instr)), p.2.wellFormed = true := by
  decide

theorem test_witness_SeededChangesOnlyBySeedingAndReset :
    (∃ t, step (facing (presentEdge 0x010000000000000001#72 0) State.reset) = .next t ∧
      State.reset.seeded = false ∧ t.seeded = true) ∧
    ∃ t, step (facing resetEdge busy) = .next t ∧ busy.seeded = true ∧ t.seeded = false :=
  ⟨⟨_, rfl, rfl, rfl⟩, ⟨_, rfl, rfl, rfl⟩⟩

theorem test_witness_LimitIsTheLargestMultiple :
    (1 ≤ 1 ∧ 1 ≤ 2 ^ 32 - 1) ∧ (1 ≤ 2 ^ 32 - 1 ∧ 2 ^ 32 - 1 ≤ 2 ^ 32 - 1) := by decide

theorem test_witness_AcceptedWordsAreUnbiased : 1 ≤ 3 ∧ 3 ≤ 2 ^ 32 - 1 ∧ 2 < 3 := by decide

theorem test_witness_BoundedDrawEnds : 1 ≤ 2 ^ 32 - 1 ∧ 2 ^ 32 - 1 ≤ 2 ^ 32 - 1 := by decide

theorem test_witness_DrawBeforeSeedingIsRefused :
    ([.next, .nextU 0, .nextLU 0 0, .nextUint, .nextInt, .nextDouble, .nextDoubleNZ, .nextFloat, .nextBool, .nextByte,
      .nextBytes 0] : List Instr).all draws = true ∧ State.reset.seeded = false := by decide

theorem test_witness_EmptyRangesAreRefused :
    badRange (.nextU 0) ∧ badRange (.nextLU 5 5) ∧ (seededWith 1).seeded = true := by
  simp [badRange, seededWith, seedExpand]

theorem test_witness_NextAndNextIntMaskTheSign :
    (Instr.next = .next ∨ Instr.next = .nextInt) ∧ (Instr.nextInt = .next ∨ Instr.nextInt = .nextInt) ∧
      State.reset.seeded = false ∧ (seededWith 1).seeded = true := by decide

theorem test_witness_NextUintIsTheRawWord : State.reset.seeded = false ∧ (seededWith 1).seeded = true :=
  ⟨rfl, rfl⟩

theorem test_witness_NextUAnswersTheFirstAcceptedWordModuloUpper :
    State.reset.seeded = false ∧ (seededWith 1).seeded = true ∧ ((0 : Int) ≤ 0 ∧ (-2 ^ 31 : Int) ≤ 0) ∧
      ((0 : Int) < 1 ∧ (1 : Int) ≤ 2 ^ 31 - 1) ∧ (0 : Int) < 2 ^ 31 - 1 := by decide

theorem test_witness_NextLUAnswersLowerPlusTheFirstAcceptedWordModuloTheWidth :
    State.reset.seeded = false ∧ (seededWith 1).seeded = true ∧ ((5 : Int) ≤ 5 ∧ (-2 ^ 31 : Int) ≤ 2 ^ 31 - 1) ∧
      (isInt32 (-1) = true ∧ isInt32 2147483647 = true) ∧
      (-2 ^ 31 : Int) ≤ -2 ^ 31 ∧ (-2 ^ 31 : Int) < 2 ^ 31 - 1 ∧ (2 ^ 31 - 1 : Int) ≤ 2 ^ 31 - 1 := by decide

theorem test_witness_NextBoolTakesOneBit :
    State.reset.seeded = false ∧ (seededWith 1).seeded = true ∧ (seededWith 1).bitcnt = 0 ∧
      (blockWith 0 0 0 1 1 32 0 0).seeded = true ∧ (blockWith 0 0 0 1 1 32 0 0).bitcnt ≠ 0 := by decide

theorem test_witness_OneWordServesThirtyTwoBooleans : (seededWith 1).seeded = true ∧ (seededWith 1).bitcnt = 0 := by decide

theorem test_witness_NextByteTakesOneByte :
    State.reset.seeded = false ∧ (seededWith 1).seeded = true ∧ (seededWith 1).bytecnt = 0 ∧
      (blockWith 0 0 0 1 0 0 1 4).seeded = true ∧ (blockWith 0 0 0 1 0 0 1 4).bytecnt ≠ 0 := by decide

theorem test_witness_NextBytesEmitsTheWordsInOrder :
    State.reset.seeded = false ∧ (seededWith 1).seeded = true ∧ 0 ≤ 2 ^ 32 - 1 ∧ 2 ^ 32 - 1 ≤ 2 ^ 32 - 1 := by decide

theorem test_witness_NextBytesEqualsNextByteRepeated :
    (seededWith 1).seeded = true ∧ (seededWith 1).bytecnt = 0 ∧ (seededWith 1).bytebuf = 0 ∧
      4 * (2 ^ 30 - 1) ≤ 2 ^ 32 - 1 := by decide

theorem test_witness_F64IsExact : 1 ≤ 1 ∧ 1 ≤ 2 ^ 53 - 1 ∧ 2 ^ 53 - 1 < 2 ^ 53 ∧ 2 ^ 53 - 2 < 2 ^ 53 - 1 := by decide

theorem test_witness_F32IsExact : 1 ≤ 1 ∧ 1 ≤ 2 ^ 24 - 1 ∧ 2 ^ 24 - 1 < 2 ^ 24 ∧ 2 ^ 24 - 2 < 2 ^ 24 - 1 := by decide

theorem test_witness_NextDoubleJoinsTwoWords : State.reset.seeded = false ∧ (seededWith 1).seeded = true :=
  ⟨rfl, rfl⟩

theorem test_witness_NextDoubleNZEndsNonZero :
    State.reset.seeded = false ∧ (seededWith 1).seeded = true ∧ (seededWith 1).gen ≠ Gen.zero := by decide

theorem test_witness_NextFloatUsesTheHighBits : State.reset.seeded = false ∧ (seededWith 1).seeded = true :=
  ⟨rfl, rfl⟩

theorem test_witness_EveryWordIsAnsweredWithItsStatus :
    (seededWith 1).NonDegenerate ∧ State.reset.NonDegenerate ∧ (∀ i, decode 0#72 ≠ .ok i) ∧
      decode 0x110000000000000000#72 = .ok (.nextU 0) := by
  have h : decode 0#72 = .error (.reservedOpcode 0) := by decide
  exact ⟨by decide, by decide, fun i => by rw [h]; simp, by decide⟩

theorem test_witness_ErrorsChangeNothing :
    ∃ t r, accept 0x110000000000000000#72 State.reset = .next t ∧ t.rsp = some r ∧ r.status ≠ .ok :=
  ⟨_, _, rfl, rfl, by decide⟩

theorem test_witness_ResponsesHaveTheirLayout :
    ∃ t, accept 0x1A0000000700000000#72 (seededWith 1) = .next t ∧
      decode 0x1A0000000700000000#72 = .ok (.nextBytes 7) := ⟨_, rfl, by decide⟩

theorem test_witness_CommandsWriteOnlyTheirRegisters :
    draws .nextByte = true ∧ Instr.nextByte ≠ .nextBool ∧ draws .nextBool = true ∧ Instr.nextBool ≠ .nextByte ∧
      (∃ t r, exec .nextBool (seededWith 1) = .next t ∧ t.rsp = some r ∧ r.status = .ok) ∧
      (∃ t r, exec .nextByte (blockWith 0 0 0 1 1 32 1 4) = .next t ∧ t.rsp = some r ∧ r.status = .ok) ∧
      ∃ t r, exec (.nextU 0) (seededWith 1) = .next t ∧ t.rsp = some r ∧ r.status ≠ .ok :=
  ⟨rfl, by decide, rfl, by decide, ⟨_, _, rfl, rfl, rfl⟩, ⟨_, _, rfl, rfl, rfl⟩, ⟨_, _, rfl, rfl, by decide⟩⟩

theorem test_witness_EveryStepKeepsTheInvariant :
    (ready drawEdge).Inv ∧ ∃ t, step (ready drawEdge) = .next t := ⟨by decide, ⟨_, rfl⟩⟩

theorem test_witness_StepsNeverFaultAndRefuseOnlyTheHost :
    let s := facing drawEdge { busy with held := some 0x100000000000000000#72 }
    s.Inv ∧ step s = .refused .unstableCommand := ⟨by decide, rfl⟩

theorem test_witness_CommandBeforeTheFirstResetIsRefused :
    let s := facing drawEdge { State.reset with resets := 0 }
    s.resets = 0 ∧ s.edges = [drawEdge] ∧ drawEdge.rst = false ∧ drawEdge.cmdValid = true ∧
      (facing resetEdge s).edges = [resetEdge] ∧ resetEdge.rst = true ∧
      (∃ t, step (ready drawEdge) = .next t) ∧ (ready drawEdge).resets ≠ 0 :=
  ⟨rfl, rfl, rfl, rfl, rfl, rfl, ⟨_, rfl⟩, by decide⟩

theorem test_witness_StepRunsTheDecodedInstruction :
    (ready drawEdge).Accepts drawEdge [] ∧ decode drawEdge.cmd = .ok .nextUint := by decide

theorem test_witness_ResponseIsDeliveredBeatByBeat :
    let s : State := { busy with edges := [takeEdge, takeEdge, takeEdge] }
    s.rsp = some { status := .ok, data := 0, bytes := [0xAD, 0xAB] } ∧ s.edges = [takeEdge, takeEdge, takeEdge] ++ [] ∧
      [takeEdge, takeEdge, takeEdge].length = [0xAD#8, 0xAB#8].length + 1 ∧
      ∀ e ∈ [takeEdge, takeEdge, takeEdge], e.rst = false ∧ e.cmdValid = false ∧ e.rspReady = true := by
  refine ⟨rfl, rfl, rfl, by decide⟩

theorem test_witness_BusyBlockAcceptsNothing :
    busy.rsp = some { status := .ok, data := 0, bytes := [0xAD, 0xAB] } ∧
      (∃ t, step (facing takeEdge busy) = .next t) ∧ takeEdge.rst = false ∧ takeEdge.rspReady = true ∧
      (∃ t, step (facing drawEdge busy) = .next t) ∧ drawEdge.rst = false ∧ drawEdge.rspReady = false :=
  ⟨rfl, ⟨_, rfl⟩, rfl, rfl, ⟨_, rfl⟩, rfl, rfl⟩

/-- An edge at which the host presents nothing. -/
def idleEdge : Edge := { rst := false, cmdValid := false, cmd := 0, entropy := 7, rspReady := true }

theorem test_witness_IdleEdgeChangesNothing :
    (ready idleEdge).edges = [idleEdge] ∧ idleEdge.rst = false ∧ (ready idleEdge).rsp = none ∧
      idleEdge.cmdValid = false := ⟨rfl, rfl, rfl, rfl⟩

theorem test_witness_UnstableCommandIsRefused :
    (let s := facing drawEdge { busy with held := some 0x100000000000000000#72 }
     s.edges = [drawEdge] ∧ drawEdge.rst = false ∧ drawEdge.cmdValid = true ∧ s.resets ≠ 0 ∧
       s.held = some 0x100000000000000000#72 ∧ drawEdge.cmd ≠ 0x100000000000000000#72) ∧
    (∃ t, step busy = .next t ∧ busy.edges = []) ∧
    (∃ t, step (facing resetEdge busy) = .next t ∧ resetEdge.rst = true) ∧
    (∃ t, step (facing drawEdge busy) = .next t ∧ drawEdge.rst = false ∧ (facing drawEdge busy).rsp ≠ none) ∧
    ∃ t, step (ready drawEdge) = .next t ∧ (ready drawEdge).rsp = none :=
  ⟨by decide, ⟨_, rfl, rfl⟩, ⟨_, rfl, rfl⟩, ⟨_, rfl, rfl, by decide⟩, ⟨_, rfl, rfl⟩⟩

theorem test_witness_ResetWinsOverEverything :
    (facing resetEdge busy).edges = [resetEdge] ∧ resetEdge.rst = true := ⟨rfl, rfl⟩

end Sys2Proof.Tests
end

section
/-!
PROOFS. The statements about the state (10_state.md). `Effect` condenses the fifteen answers of `Answer` to the five things
a command can do to the state; the frame (R33), the words consumed (R161) and the invariant (R21, R25, R57) are then short
case analyses over it. `step_nine_cases` says at which edges the nine registers can change.
-/

namespace Sys2Proof.Machine

/-! ## Empty caches and cleared states -/

theorem bitCacheOk_of_empty {s : State} (hb : s.bitbuf = 0) (hc : s.bitcnt = 0) : s.BitCacheOk := by
  simp [State.BitCacheOk, hb, hc]

theorem byteCacheOk_of_empty {s : State} (hb : s.bytebuf = 0) (hc : s.bytecnt = 0) : s.ByteCacheOk := by
  simp [State.ByteCacheOk, hb, hc]

/-- The values R33 gives after a reset meet the invariant, whatever the generator words hold. -/
theorem inv_of_cleared {s : State} (hs : s.seeded = false) (hbit : s.bitbuf = 0 ∧ s.bitcnt = 0)
    (hbyte : s.bytebuf = 0 ∧ s.bytecnt = 0) (hr : s.rsp = none) : s.Inv :=
  ⟨fun h => absurd h (by simp [hs]), bitCacheOk_of_empty hbit.1 hbit.2, byteCacheOk_of_empty hbyte.1 hbyte.2,
    by simp [State.ResponseOk, hr]⟩

/-! ## The caches keep R25 -/

/-- Taking `m` of `m + k` cached bits leaves `k` (R25). -/
theorem toNat_ushiftRight_lt {b : Word} {m k : Nat} (h : b.toNat < 2 ^ (m + k)) : (b >>> m).toNat < 2 ^ k := by
  rw [BitVec.toNat_ushiftRight, Nat.shiftRight_eq_div_pow]
  exact Nat.div_lt_of_lt_mul (by rwa [← Nat.pow_add])

theorem refillBits_bitcnt_ne_zero (s : State) : (refillBits s).bitcnt ≠ 0 := by
  by_cases h : s.bitcnt = 0
  · rw [refillBits_of_empty h]; simp
  · rwa [refillBits_of_not_empty h]

theorem refillBytes_bytecnt_ne_zero (s : State) : (refillBytes s).bytecnt ≠ 0 := by
  by_cases h : s.bytecnt = 0
  · rw [refillBytes_of_empty h]; simp
  · rwa [refillBytes_of_not_empty h]

theorem refillBits_bitCacheOk {s : State} (hs : s.BitCacheOk) : (refillBits s).BitCacheOk := by
  by_cases h : s.bitcnt = 0
  · rw [refillBits_of_empty h]; exact ⟨by simp, (s.gen.raw 0).isLt⟩
  · rwa [refillBits_of_not_empty h]

theorem refillBytes_byteCacheOk {s : State} (hs : s.ByteCacheOk) : (refillBytes s).ByteCacheOk := by
  by_cases h : s.bytecnt = 0
  · rw [refillBytes_of_empty h]; exact ⟨by simp, (s.gen.raw 0).isLt⟩
  · rwa [refillBytes_of_not_empty h]

theorem dropBit_bitCacheOk {s : State} (hs : s.BitCacheOk) (hc : s.bitcnt ≠ 0) : (dropBit s).BitCacheOk := by
  obtain ⟨hle, hlt⟩ := hs
  have hcnt : s.bitcnt.toNat = 1 + (s.bitcnt - 1).toNat := by bv_omega
  rw [hcnt] at hle hlt
  exact ⟨by simp only [dropBit, State.withBitCache_bitcnt]; omega, toNat_ushiftRight_lt hlt⟩

theorem dropByte_byteCacheOk {s : State} (hs : s.ByteCacheOk) (hc : s.bytecnt ≠ 0) : (dropByte s).ByteCacheOk := by
  obtain ⟨hle, hlt⟩ := hs
  have hcnt : s.bytecnt.toNat = 1 + (s.bytecnt - 1).toNat := by bv_omega
  rw [hcnt] at hle hlt
  rw [Nat.mul_add] at hlt
  exact ⟨by simp only [dropByte, State.withByteCache_bytecnt]; omega, toNat_ushiftRight_lt hlt⟩

/-- What `NEXT_BOOL` does to the registers (R105): at most one word drawn, the Boolean cache written. -/
theorem dropBit_refillBits_eq (s : State) :
    dropBit (refillBits s) =
      (s.withGen (s.gen.advance (if s.bitcnt = 0 then 1 else 0))).withBitCache
        ((refillBits s).bitbuf >>> 1) ((refillBits s).bitcnt - 1) := by
  by_cases h : s.bitcnt = 0
  · rw [if_pos h, refillBits_of_empty h]; rfl
  · rw [if_neg h, refillBits_of_not_empty h]; rfl

/-- What `NEXT_BYTE` does to the registers (R106): at most one word drawn, the byte cache written. -/
theorem dropByte_refillBytes_eq (s : State) :
    dropByte (refillBytes s) =
      (s.withGen (s.gen.advance (if s.bytecnt = 0 then 1 else 0))).withByteCache
        ((refillBytes s).bytebuf >>> 8) ((refillBytes s).bytecnt - 1) := by
  by_cases h : s.bytecnt = 0
  · rw [if_pos h, refillBytes_of_empty h]; rfl
  · rw [if_neg h, refillBytes_of_not_empty h]; rfl

/-! ## Generator words and responses -/

/-- No seed loads the all-zero state: the third word is the constant `SEED_Z` (R81). -/
theorem seedWords_ne_zero (v : DWord) : seedWords v ≠ Gen.zero := by
  intro h
  have hz : Config.seedZ = 0 := congrArg Gen.z h
  exact absurd hz (by decide)

theorem responseOk_withResponse {s : State} {r : Response} (h : r.WellFormed) : (s.withResponse r).ResponseOk := by
  simpa [State.ResponseOk] using h

theorem wellFormed_ok (d : DWord) (bs : List Byte) : Response.WellFormed ⟨.ok, d, bs⟩ := fun h => absurd rfl h

theorem wellFormed_refusal (e : Status) : Response.WellFormed ⟨e, 0, []⟩ := fun _ => ⟨rfl, rfl⟩

theorem deliver_of_rsp {s : State} {r : Response} (h : s.rsp = some r) :
    deliver s = { s with rsp := r.afterBeat, received := s.received ++ [r.beat] } := by
  rw [deliver, h]

theorem deliver_nine (s : State) : (deliver s).nine = s.nine := by
  unfold deliver
  split <;> rfl

/-- What is left after a data beat is well-formed: only an OK response has data beats (R57). -/
theorem Response.WellFormed.afterBeat {r q : Response} (h : r.WellFormed) (hq : r.afterBeat = some q) :
    q.WellFormed := by
  unfold Response.afterBeat at hq
  cases hb : r.bytes with
  | nil => simp [hb] at hq
  | cons b bs =>
    simp only [hb, Option.some.injEq] at hq
    subst hq
    exact fun hs => absurd ((h hs).2) (by simp [hb])

/-! ## The five things a command can do -/

/-- What a command does to the state: it refuses, it seeds, or it draws the words of R161 and possibly takes from one of
the caches, which it leaves within R25. -/
inductive Effect (i : Instr) (s : State) : State → Prop
  | refusal {e : Status} (he : e ≠ .ok) : Effect i s (s.withResponse ⟨e, 0, []⟩)
  | seeding {v : DWord} (hd : draws i = false) : Effect i s ((seedExpand v s).withResponse ⟨.ok, 0, []⟩)
  | words {k : Nat} {d : DWord} {bs : List Byte} (hk : WordsConsumed i s k) :
    Effect i s ((s.withGen (s.gen.advance k)).withResponse ⟨.ok, d, bs⟩)
  | bit {k : Nat} {b : Word} {c : BitVec 6} {d : DWord} (hi : i = .nextBool) (hk : WordsConsumed i s k)
    (hc : s.BitCacheOk → (s.withBitCache b c).BitCacheOk) :
    Effect i s (((s.withGen (s.gen.advance k)).withBitCache b c).withResponse ⟨.ok, d, []⟩)
  | byte {k : Nat} {b : Word} {c : BitVec 3} {d : DWord} (hi : i = .nextByte) (hk : WordsConsumed i s k)
    (hc : s.ByteCacheOk → (s.withByteCache b c).ByteCacheOk) :
    Effect i s (((s.withGen (s.gen.advance k)).withByteCache b c).withResponse ⟨.ok, d, []⟩)

/-- Every answer of a command is one of the five effects. -/
theorem Answer.effect {i : Instr} {s t : State} (h : Answer i s t) : Effect i s t := by
  cases h with
  | notSeeded | badRange => exact .refusal (by decide)
  | seed | seedDefault => exact .seeding rfl
  | next | nextUint | nextInt | nextFloat => exact .words (k := 1) rfl
  | nextDouble => exact .words (k := 2) rfl
  | nextU _ _ hf => exact .words ⟨_, hf, rfl⟩
  | nextLU _ _ hf => exact .words ⟨_, hf, rfl⟩
  | nextDoubleNZ _ hf => exact .words ⟨_, hf, rfl⟩
  | nextBytes => exact .words rfl
  | nextBool =>
    rw [dropBit_refillBits_eq]
    exact .bit rfl rfl fun hb => dropBit_bitCacheOk (refillBits_bitCacheOk hb) (refillBits_bitcnt_ne_zero s)
  | nextByte =>
    rw [dropByte_refillBytes_eq]
    exact .byte rfl rfl fun hb => dropByte_byteCacheOk (refillBytes_byteCacheOk hb) (refillBytes_bytecnt_ne_zero s)

section
variable {i : Instr} {s t : State}

/-- A command writes nothing of the host's side (R29, R33). -/
theorem Effect.sameHostSide (h : Effect i s t) : s.SameHostSide t := by
  cases h <;> exact ⟨rfl, rfl, rfl, rfl, rfl⟩

/-- A drawing command does not write `seeded` (R22). -/
theorem Effect.seeded_eq (h : Effect i s t) (hd : draws i = true) : t.seeded = s.seeded := by
  cases h with
  | seeding hf => simp [hd] at hf
  | refusal | words | bit | byte => rfl

/-- Of the drawing commands only `NEXT_BOOL` writes the Boolean cache (R33). -/
theorem Effect.bitCache_eq (h : Effect i s t) (hd : draws i = true) (hi : i ≠ .nextBool) :
    t.bitbuf = s.bitbuf ∧ t.bitcnt = s.bitcnt := by
  cases h with
  | seeding hf => simp [hd] at hf
  | bit he => exact absurd he hi
  | refusal | words | byte => exact ⟨rfl, rfl⟩

/-- Of the drawing commands only `NEXT_BYTE` writes the byte cache (R33). -/
theorem Effect.byteCache_eq (h : Effect i s t) (hd : draws i = true) (hi : i ≠ .nextByte) :
    t.bytebuf = s.bytebuf ∧ t.bytecnt = s.bytecnt := by
  cases h with
  | seeding hf => simp [hd] at hf
  | byte he => exact absurd he hi
  | refusal | words | bit => exact ⟨rfl, rfl⟩

/-- The response of a command: an error leaves the nine registers (R135), an OK drawing command consumes the words of
R161. -/
theorem Effect.response (h : Effect i s t) :
    ∃ r, t.rsp = some r ∧ (r.status ≠ .ok → t.nine = s.nine) ∧
      (r.status = .ok → draws i = true → ∃ k, WordsConsumed i s k ∧ t.gen = s.gen.advance k) := by
  cases h with
  | refusal he => exact ⟨_, rfl, fun _ => rfl, fun hs => absurd hs he⟩
  | seeding hf => exact ⟨_, rfl, fun hs => absurd rfl hs, fun _ hd => by simp [hd] at hf⟩
  | words hk | bit _ hk | byte _ hk => exact ⟨_, rfl, fun hs => absurd rfl hs, fun _ _ => ⟨_, hk, rfl⟩⟩

/-- A command keeps the invariant (R21, R25, R57). -/
theorem Effect.inv (h : Effect i s t) (hs : s.Inv) : t.Inv := by
  obtain ⟨hgen, hbit, hbyte, -⟩ := hs
  have hadv (k : Nat) : (s.withGen (s.gen.advance k)).NonDegenerate := fun h he =>
    hgen h (Gen.advance_eq_zero he)
  cases h with
  | refusal => exact ⟨hgen, hbit, hbyte, responseOk_withResponse (wellFormed_refusal _)⟩
  | seeding =>
    exact ⟨fun _ => seedWords_ne_zero _, bitCacheOk_of_empty rfl rfl, byteCacheOk_of_empty rfl rfl,
      responseOk_withResponse (wellFormed_ok _ _)⟩
  | words => exact ⟨hadv _, hbit, hbyte, responseOk_withResponse (wellFormed_ok _ _)⟩
  | bit _ _ hc => exact ⟨hadv _, hc hbit, hbyte, responseOk_withResponse (wellFormed_ok _ _)⟩
  | byte _ _ hc => exact ⟨hadv _, hbit, hc hbyte, responseOk_withResponse (wellFormed_ok _ _)⟩

end

/-! ## Edges -/

/-- Accepting any word keeps the invariant, a reserved opcode included (R133). -/
theorem accept_inv {c : CmdWord} {s t : State} (h : accept c s = .next t) (hs : s.Inv) : t.Inv := by
  obtain ⟨i, -, ha⟩ | ⟨-, rfl⟩ := accept_cases h
  · exact ha.effect.inv hs
  · obtain ⟨hgen, hbit, hbyte, -⟩ := hs
    exact ⟨hgen, hbit, hbyte, responseOk_withResponse (wellFormed_refusal _)⟩

/-- Delivering a beat keeps the invariant. -/
theorem deliver_inv {s : State} (hs : s.Inv) : (deliver s).Inv := by
  cases hr : s.rsp with
  | none => rwa [deliver, hr]
  | some r =>
    obtain ⟨hgen, hbit, hbyte, hrsp⟩ := hs
    rw [deliver_of_rsp hr]
    exact ⟨hgen, hbit, hbyte, fun q hq => (hrsp r hr).afterBeat hq⟩

/-- The nine registers change only at a reset edge and at an edge that accepts a command (R22, R159). -/
theorem step_nine_cases {s t : State} (h : step s = .next t) :
    t.nine = s.nine ∨
    ∃ e rest, s.edges = e :: rest ∧
      ((e.rst = true ∧ t.seeded = false) ∨
       (s.Accepts e rest ∧ ∃ i, decode e.cmd = .ok i ∧ Answer i (s.atAccept e rest) t)) := by
  obtain ⟨-, rfl⟩ | ⟨e, rest, he, hstep⟩ := step_cases h
  · exact .inl rfl
  obtain ⟨hr, rfl⟩ | ⟨ha, hacc⟩ | ⟨-, -, -, -, rfl⟩ | ⟨-, -, -, -, rfl⟩ | ⟨-, -, -, -, rfl⟩ := hstep
  · exact .inr ⟨e, rest, he, .inl ⟨hr, rfl⟩⟩
  · obtain ⟨i, hi, hans⟩ | ⟨-, rfl⟩ := accept_cases hacc
    · exact .inr ⟨e, rest, he, .inr ⟨ha, i, hi, hans⟩⟩
    · exact .inl rfl
  · exact .inl rfl
  · exact .inl (deliver_nine _)
  · exact .inl rfl

/-- The two seeding commands are the ones that do not draw (R130). -/
theorem draws_eq_false_iff (i : Instr) : draws i = false ↔ (∃ v, i = .seed v) ∨ i = .seedDefault := by
  cases i <;> simp [draws]

/-- What the decoder reads lies inside the operand types (R52, R60). -/
theorem wellFormed_of_decode {c : CmdWord} {i : Instr} (h : decode c = .ok i) : i.wellFormed = true := by
  obtain ⟨-, hi⟩ := decode_ok_cases h
  rcases hi with rfl | rfl | rfl | rfl | rfl | rfl | rfl | rfl | rfl | rfl | rfl | rfl | rfl <;>
    simp [Instr.wellFormed, isInt32_signed32, isUInt32_toNat]

/-! ## The obligations -/

/-- Settles O43, by the kinds of edge: a reset clears, a command keeps the invariant by its effect, a delivered beat leaves
a well-formed rest, and the other edges change no field it speaks of. -/
theorem everyStepKeepsTheInvariant : Obligations.EveryStepKeepsTheInvariant := by
  intro s t hs h
  obtain ⟨-, rfl⟩ | ⟨e, rest, -, hstep⟩ := step_cases h
  · exact hs
  obtain ⟨-, rfl⟩ | ⟨-, hacc⟩ | ⟨-, -, -, -, rfl⟩ | ⟨-, -, -, -, rfl⟩ | ⟨-, -, -, -, rfl⟩ := hstep
  · exact inv_of_cleared rfl ⟨rfl, rfl⟩ ⟨rfl, rfl⟩ rfl
  · exact accept_inv hacc hs
  · exact hs
  · exact deliver_inv hs
  · exact hs

/-- Settles O18: of the edges at which the nine registers change, a reset clears `seeded`, a drawing command keeps it, and
no command clears it. -/
theorem seededChangesOnlyBySeedingAndReset : Obligations.SeededChangesOnlyBySeedingAndReset := by
  intro s t h
  obtain hn | ⟨e, rest, he, ⟨hr, ht⟩ | ⟨ha, i, hi, hans⟩⟩ := step_nine_cases h
  · have hs : t.seeded = s.seeded := congrArg Nine.seeded hn
    exact ⟨fun h0 h1 => by simp [hs, h0] at h1, fun h1 h0 => by simp [hs, h1] at h0⟩
  · exact ⟨fun _ h1 => by simp [ht] at h1, fun _ _ => ⟨e, rest, he, hr⟩⟩
  · refine ⟨fun h0 h1 => ⟨e, rest, ha, ?_⟩, fun h1 h0 => absurd (hans.keeps_seeded h1) (by simp [h0])⟩
    cases hd : draws i with
    | true =>
      have hs : t.seeded = s.seeded := hans.effect.seeded_eq hd
      simp [h0, h1] at hs
    | false => simpa [hi] using (draws_eq_false_iff i).mp hd

/-- Settles O41, by the five effects a command can have. -/
theorem commandsWriteOnlyTheirRegisters : Obligations.CommandsWriteOnlyTheirRegisters := by
  intro i s t h
  have he : Effect i s t := (exec_answer h).effect
  exact ⟨he.sameHostSide, he.seeded_eq, he.bitCache_eq, he.byteCache_eq, he.response⟩

/-- Settles O42: the state after reset is a cleared state with no response. -/
theorem resetMeetsTheInvariant : Obligations.ResetMeetsTheInvariant :=
  ⟨inv_of_cleared rfl ⟨rfl, rfl⟩ ⟨rfl, rfl⟩ rfl, rfl, rfl, rfl, rfl, rfl, rfl, rfl⟩

/-- Settles O46, from what an accepting edge does. -/
theorem stepRunsTheDecodedInstruction : Obligations.StepRunsTheDecodedInstruction := by
  intro s e rest i ha hi
  refine ⟨wellFormed_of_decode hi, ?_⟩
  rw [step_of_accepts ha, accept, hi]

/-- Settles O50: the block is ready, and the edge presents nothing to refuse or to accept. -/
theorem idleEdgeChangesNothing : Obligations.IdleEdgeChangesNothing := by
  intro s e rest he hrst hrsp hv
  have hready : cmdReady e.rst { s with edges := rest } = true := by simp [cmdReady, hrst, hrsp]
  rw [step_of_edge he, onEdge, if_neg (by simp [hrst]), hostRefusal_of_not_presented hv]
  dsimp only
  rw [if_pos hready, if_neg (by simp [hv])]
  rfl

end Sys2Proof.Machine
end

section
/-!
PROOFS. The statements about the encoding (30_encoding.md). `Instr.withFields` says what an opcode makes of two operand
fields; decoding a word is then that function, encoding its canonical inverse, and the format (R51) says which fields it
reads. The response (R57, R58) has one layout per answer of a command, and a host that takes every beat is followed edge
by edge along the bytes still to come.
-/

namespace Sys2Proof

/-! ## The operands read from the fields -/

/-- The command with the opcode of `i` whose operands are the fields `a` and `b`, read as R52 reads them. -/
def Instr.withFields (i : Instr) (a b : Word) : Instr :=
  match i with
  | .seed _ => .seed (seedOperand a b)
  | .nextU _ => .nextU (signed32 a)
  | .nextLU _ _ => .nextLU (signed32 a) (signed32 b)
  | .nextBytes _ => .nextBytes a.toNat
  | i => i

/-- Decoding a word with the opcode of `i` reads its fields as the operands of `i` (R52, R53). -/
theorem decode_commandWord (i : Instr) (a b : Word) : decode (commandWord (opcode i) a b) = .ok (i.withFields a b) := by
  rw [decode, opField_commandWord, aField_commandWord, bField_commandWord]
  cases i <;> rfl

@[simp] theorem opcode_withFields (i : Instr) (a b : Word) : opcode (i.withFields a b) = opcode i := by
  cases i <;> rfl

/-- The canonical fields of a well-formed command are read back as its operands. -/
theorem withFields_canonical {i : Instr} (h : i.wellFormed = true) : i.withFields (fieldA i) (fieldB i) = i := by
  cases i with
  | seed v => exact congrArg Instr.seed (seedOperand_halves v)
  | nextU u => exact congrArg Instr.nextU (signed32_pattern32 h)
  | nextLU l u =>
    obtain ⟨hl, hu⟩ : isInt32 l = true ∧ isInt32 u = true := by simpa [Instr.wellFormed] using h
    exact congrArg₂ Instr.nextLU (signed32_pattern32 hl) (signed32_pattern32 hu)
  | nextBytes n =>
    have hn : n ≤ 4294967295 := (isUInt32_iff n).mp h
    refine congrArg Instr.nextBytes ?_
    rw [fieldA, BitVec.toNat_ofNat, Nat.mod_eq_of_lt (by omega)]
  | _ => rfl

/-- Operands read from a field are written back to it; an unused field is written 0 (R54). -/
theorem fieldA_withFields (i : Instr) (a b : Word) :
    fieldA (i.withFields a b) = if (format i).usesA then a else 0 := by
  cases i with
  | seed => exact seedOperand_high a b
  | nextU | nextLU => exact pattern32_signed32 a
  | nextBytes => exact (BitVec.ofNat_toNat 32 a).trans (BitVec.setWidth_eq a)
  | _ => rfl

theorem fieldB_withFields (i : Instr) (a b : Word) :
    fieldB (i.withFields a b) = if (format i).usesB then b else 0 := by
  cases i with
  | seed => exact seedOperand_low a b
  | nextLU => exact pattern32_signed32 b
  | _ => rfl

/-- The operands depend only on the fields the format uses (R51, R54). -/
theorem withFields_congr {i : Instr} {a a' b b' : Word} (ha : (format i).usesA = true → a = a')
    (hb : (format i).usesB = true → b = b') : i.withFields a b = i.withFields a' b' := by
  cases i with
  | seed | nextLU => rw [ha rfl, hb rfl]
  | nextU | nextBytes => simp only [Instr.withFields, ha rfl]
  | _ => rfl

/-! ## Words -/

/-- A word with the opcode of `i` decodes to `i` with the word's fields. -/
theorem decode_of_opField {c : CmdWord} {i : Instr} (h : opField c = opcode i) :
    decode c = .ok (i.withFields (aField c) (bField c)) := by
  rw [← decode_commandWord, ← h, commandWord_fields]

theorem opField_of_decode {c : CmdWord} {i : Instr} (h : decode c = .ok i) : opField c = opcode i :=
  (decode_ok_cases h).1

/-- What a word decodes to has the word's fields as its operands. -/
theorem withFields_of_decode {c : CmdWord} {i : Instr} (h : decode c = .ok i) :
    i.withFields (aField c) (bField c) = i :=
  Except.ok.inj ((decode_of_opField (opField_of_decode h)).symm.trans h)

/-- A word that is no command is reported with its opcode (R56). -/
theorem decode_error_eq {c : CmdWord} {e : DecodeError} (h : decode c = .error e) : e = .reservedOpcode (opField c) := by
  unfold decode at h
  split at h <;> simp only [reduceCtorEq, Except.error.injEq] at h
  exact h.symm

/-- Whether a word is a command depends on its opcode alone (R53). -/
theorem decode_error_of_opField {c c' : CmdWord} {e : DecodeError} (ho : opField c = opField c')
    (h : decode c = .error e) : decode c' = .error e := by
  cases hd : decode c' with
  | ok i => simp [decode_of_opField (ho.trans (opField_of_decode hd))] at h
  | error e' => rw [decode_error_eq h, decode_error_eq hd, ho]

/-- The row of every command in the opcode table (R51, R54, R55). -/
theorem tableRow_statement : ∀ i : Instr, Laws.TableRow.Statement i
  | .seed v => Laws.TableRow.seed v
  | .seedDefault => Laws.TableRow.seedDefault
  | .next => Laws.TableRow.next
  | .nextU u => Laws.TableRow.nextU u
  | .nextLU l u => Laws.TableRow.nextLU l u
  | .nextUint => Laws.TableRow.nextUint
  | .nextInt => Laws.TableRow.nextInt
  | .nextDouble => Laws.TableRow.nextDouble
  | .nextDoubleNZ => Laws.TableRow.nextDoubleNZ
  | .nextFloat => Laws.TableRow.nextFloat
  | .nextBool => Laws.TableRow.nextBool
  | .nextByte => Laws.TableRow.nextByte
  | .nextBytes n => Laws.TableRow.nextBytes n

/-- R52 for a seed: `a * 2^32 + b`. -/
theorem seedOperand_eq_ofNat (a b : Word) : seedOperand a b = BitVec.ofNat 64 (a.toNat * 2 ^ 32 + b.toNat) := by
  rw [← seedOperand_toNat, BitVec.ofNat_toNat, BitVec.setWidth_eq]

/-! ## The obligations about command words -/

/-- Settles O1: the opcode selects the command, and its canonical fields are read back as its operands. -/
theorem decodeOfEncodeIsTheInstruction : Obligations.DecodeOfEncodeIsTheInstruction := by
  intro i hi
  rw [encode, decode_commandWord, withFields_canonical hi]

/-- Settles O2: the command decoded from a word carries the word's fields, which encoding writes back where they are
used. -/
theorem decodedFieldsAreTheWordsFields : Obligations.DecodedFieldsAreTheWordsFields := by
  intro c i h
  refine ⟨Machine.wellFormed_of_decode h, ?_⟩
  rw [encode, opField_of_decode h, ← fieldA_withFields i _ (bField c), ← fieldB_withFields i (aField c),
    withFields_of_decode h]

/-- Settles O3: a command's operands come from the used fields only, and a reserved opcode is reserved whatever the
fields. -/
theorem unusedOperandFieldsAreIgnored : Obligations.UnusedOperandFieldsAreIgnored := by
  refine ⟨fun c c' ho hf => ?_, fun i => ?_⟩
  · have hd : decode c = decode c' := by
      cases h : decode c with
      | ok i =>
        obtain ⟨ha, hb⟩ := hf i h
        rw [decode_of_opField (ho.symm.trans (opField_of_decode h)), ← withFields_congr ha hb, withFields_of_decode h]
      | error e => exact (decode_error_of_opField ho h).symm
    exact ⟨hd, fun s => by rw [Machine.accept, Machine.accept, hd]⟩
  · obtain ⟨-, ha, hb, -⟩ := tableRow_statement i
    exact ⟨ha, hb⟩

/-- Settles O4: `decode_commandWord` at each of the thirteen opcodes, with the readings of R52 written out. -/
theorem opcodesAndOperandsAreReadAsTheSpecSays : Obligations.OpcodesAndOperandsAreReadAsTheSpecSays := by
  intro a b
  rw [← seedOperand_eq_ofNat, ← signed32_eq_toInt, ← signed32_eq_toInt]
  exact ⟨decode_commandWord (.seed 0) a b, decode_commandWord .seedDefault a b, decode_commandWord .next a b,
    decode_commandWord (.nextU 0) a b, decode_commandWord (.nextLU 0 0) a b, decode_commandWord .nextUint a b,
    decode_commandWord .nextInt a b, decode_commandWord .nextDouble a b, decode_commandWord .nextDoubleNZ a b,
    decode_commandWord .nextFloat a b, decode_commandWord .nextBool a b, decode_commandWord .nextByte a b,
    decode_commandWord (.nextBytes 0) a b⟩

end Sys2Proof

namespace Sys2Proof.Machine

/-! ## How many bits of `data` a value fills (R57) -/

/-- A pattern with sign 0 and an exponent field below `2^k` leaves the bits above exponent and fraction 0. -/
theorem toNat_sign_zero_append_lt {n m k : Nat} {e : BitVec n} {f : BitVec m} (he : e.toNat < 2 ^ k) :
    (0#1 ++ e ++ f).toNat < 2 ^ (k + m) := by
  have hf : f.toNat < 2 ^ (k + m) := f.isLt.trans_le (Nat.pow_le_pow_right (by decide) (Nat.le_add_left m k))
  have hs : e.toNat <<< m < 2 ^ (k + m) := by
    rw [Nat.shiftLeft_eq, Nat.pow_add]
    exact Nat.mul_lt_mul_of_pos_right he (Nat.two_pow_pos m)
  simpa [BitVec.toNat_append] using Nat.or_lt_two_pow hs hf

/-- The exponent of a fraction stays below 1023, so bit 62 of its binary64 pattern is 0 (R120). -/
theorem f64_toNat_lt {m : Nat} (hm : m < 2 ^ 53) : (f64 m).toNat < 2 ^ 62 := by
  unfold f64
  split
  · decide
  · next h0 =>
    have hk : msbIndex m < 53 := (Nat.log2_lt h0).mpr hm
    refine toNat_sign_zero_append_lt (k := 10) ?_
    rw [BitVec.toNat_ofNat]
    omega

/-- The exponent of a fraction stays below 127, so bit 30 of its binary32 pattern is 0 (R124). -/
theorem f32_toNat_lt {m : Nat} (hm : m < 2 ^ 24) : (f32 m).toNat < 2 ^ 30 := by
  unfold f32
  split
  · decide
  · next h0 =>
    have hk : msbIndex m < 24 := (Nat.log2_lt h0).mpr hm
    refine toNat_sign_zero_append_lt (k := 7) ?_
    rw [BitVec.toNat_ofNat]
    omega

theorem zextWord_toNat (v : Word) : (zextWord v).toNat = v.toNat :=
  BitVec.toNat_setWidth_of_le (by decide)

theorem int32Data_toNat_lt (res : Int) : (int32Data res).toNat < 2 ^ 32 := by
  rw [int32Data, BitVec.toNat_setWidth_of_le (by decide)]
  exact BitVec.isLt _

theorem zextNat_toNat_le (n : Nat) : (zextNat n).toNat ≤ n := by
  rw [zextNat, BitVec.toNat_ofNat]
  exact Nat.mod_le _ _

theorem zextBit_toNat_lt (v : Bool) : (zextBit v).toNat < 2 ^ 1 := by
  cases v <;> decide

theorem maskSign_toNat_lt (r : Word) : (maskSign r).toNat < 2 ^ 31 := by
  rw [maskSign_toNat]
  exact Nat.mod_lt _ (by decide)

/-! ## The layout of a response -/

/-- R57, R58: the form of a response to the command `i`. -/
structure Response.Layout (i : Instr) (r : Response) : Prop where
  wellFormed : r.WellFormed
  data_lt : r.data.toNat < 2 ^ resultBits i
  stream : ∀ len, i = .nextBytes len → r.status = .ok → r.bytes.length = len
  no_stream : (∀ len, i ≠ .nextBytes len) → r.bytes = []

/-- The form of an error, whatever the command. -/
theorem Response.Layout.refusal {i : Instr} {e : Status} (he : e ≠ .ok) : Response.Layout i ⟨e, 0, []⟩ where
  wellFormed := wellFormed_refusal e
  data_lt := Nat.two_pow_pos _
  stream _ _ hs := absurd hs he
  no_stream _ := rfl

/-- The form of an answer that is one value. -/
theorem Response.Layout.value {i : Instr} {d : DWord} (hd : d.toNat < 2 ^ resultBits i)
    (hi : ∀ len, i ≠ .nextBytes len) : Response.Layout i ⟨.ok, d, []⟩ where
  wellFormed := wellFormed_ok d []
  data_lt := hd
  stream len h _ := absurd h (hi len)
  no_stream _ := rfl

/-- The form of the byte stream. -/
theorem Response.Layout.bytes {len : Nat} {bs : List Byte} (h : bs.length = len) :
    Response.Layout (.nextBytes len) ⟨.ok, 0, bs⟩ where
  wellFormed := wellFormed_ok 0 bs
  data_lt := Nat.two_pow_pos _
  stream _ hi _ := h.trans (Instr.nextBytes.inj hi)
  no_stream hn := absurd rfl (hn len)

/-- Every answer of a well-formed command has its layout. -/
theorem Answer.layout {i : Instr} {s t : State} (h : Answer i s t) (hw : i.wellFormed = true) :
    ∃ r, t.rsp = some r ∧ r.Layout i := by
  cases h with
  | notSeeded | badRange => exact ⟨_, rfl, .refusal (by decide)⟩
  | seed | seedDefault => exact ⟨_, rfl, .value (Nat.two_pow_pos _) nofun⟩
  | next | nextInt => exact ⟨_, rfl, .value ((zextWord_toNat _).trans_lt (maskSign_toNat_lt _)) nofun⟩
  | @nextU u k _ _ hu _ =>
    have hmax : u ≤ 2147483647 := ((isInt32_iff u).mp hw).2
    have hmod : (s.gen.raw k).toNat % u.toNat < u.toNat := Nat.mod_lt _ (by omega)
    have hle := zextNat_toNat_le ((s.gen.raw k).toNat % u.toNat)
    exact ⟨_, rfl, .value (show _ < 2 ^ 31 by omega) nofun⟩
  | nextLU => exact ⟨_, rfl, .value (int32Data_toNat_lt _) nofun⟩
  | nextUint => exact ⟨_, rfl, .value ((zextWord_toNat _).trans_lt (BitVec.isLt _)) nofun⟩
  | nextDouble | nextDoubleNZ => exact ⟨_, rfl, .value (f64_toNat_lt (join53_lt _ _)) nofun⟩
  | nextFloat => exact ⟨_, rfl, .value ((zextWord_toNat _).trans_lt (f32_toNat_lt (high24_lt _))) nofun⟩
  | nextBool => exact ⟨_, rfl, .value (zextBit_toNat_lt _) nofun⟩
  | nextByte => exact ⟨_, rfl, .value ((zextByte_toNat _).trans_lt (BitVec.isLt _)) nofun⟩
  | nextBytes => exact ⟨_, rfl, .bytes (streamBytes_length _ _)⟩

/-- Settles O40: a command's answer has the layout of the command, and a reserved opcode is answered with an error. -/
theorem responsesHaveTheirLayout : Obligations.ResponsesHaveTheirLayout := by
  intro c s t h
  obtain ⟨i, hi, ha⟩ | ⟨hne, rfl⟩ := accept_cases h
  · obtain ⟨r, hr, hl⟩ := ha.layout (wellFormed_of_decode hi)
    refine ⟨r, hr, hl.wellFormed, fun j hj => ?_⟩
    obtain rfl : i = j := Except.ok.inj (hi.symm.trans hj)
    exact ⟨hl.data_lt, hl.stream, hl.no_stream⟩
  · exact ⟨_, rfl, wellFormed_refusal _, fun i hi => absurd hi (hne i)⟩

/-! ## The delivery of a response -/

/-- The host presents no command and takes a beat if there is one (R30). -/
abbrev Edge.Takes (e : Edge) : Prop := e.rst = false ∧ e.cmdValid = false ∧ e.rspReady = true

/-- The state after the edge `e`, at which the host takes a beat of the response `r` and presents nothing. -/
def State.afterTake (s : State) (r : Response) (e : Edge) (rest : List Edge) : State :=
  { s with
    edges := rest, entropy := e.entropy, held := none
    rsp := r.afterBeat, received := s.received ++ [r.beat] }

@[simp] theorem State.afterTake_rsp (s : State) (r : Response) (e : Edge) (rest : List Edge) :
    (s.afterTake r e rest).rsp = r.afterBeat := rfl
@[simp] theorem State.afterTake_received (s : State) (r : Response) (e : Edge) (rest : List Edge) :
    (s.afterTake r e rest).received = s.received ++ [r.beat] := rfl
@[simp] theorem State.afterTake_edges (s : State) (r : Response) (e : Edge) (rest : List Edge) :
    (s.afterTake r e rest).edges = rest := rfl
@[simp] theorem State.afterTake_nine (s : State) (r : Response) (e : Edge) (rest : List Edge) :
    (s.afterTake r e rest).nine = s.nine := rfl

/-- An edge that takes a beat of an outstanding response does nothing else (R30, R159). -/
theorem step_of_takes {s : State} {e : Edge} {rest : List Edge} {r : Response} (hr : s.rsp = some r)
    (he : s.edges = e :: rest) (ht : e.Takes) :
    step s = .next (s.afterTake r e rest) := by
  obtain ⟨hrst, hv, hready⟩ := ht
  have hbusy : cmdReady e.rst { s with edges := rest } = false := by simp [cmdReady, hr]
  have hp : e.presented = none := by simp [Edge.presented, hv]
  rw [step_of_edge he, onEdge, if_neg (by simp [hrst]), hostRefusal_of_not_presented hv]
  dsimp only
  rw [if_neg (by simp [hbusy]), if_pos hready, hp,
    deliver_of_rsp (s := sampleInputs e none { s with edges := rest }) hr]
  rfl

/-- One step of a run of the machine, split off at the front. -/
theorem run_succ_of_step {k : Nat} {s t : State} (h : step s = .next t) :
    Host.Core.run core (k + 1) s = Host.Core.run core k t := by
  have hc : core.step s = .next t := h
  simp only [Host.Core.run, hc]

theorem Response.beats_of_nil {r : Response} (h : r.bytes = []) : r.beats = [r.beat] := by
  simp [Response.beats, Response.beat, h]

theorem Response.beats_of_cons {r : Response} {b : Byte} {bs : List Byte} (h : r.bytes = b :: bs) :
    r.beats = r.beat :: Response.beats { r with bytes := bs } := by
  simp [Response.beats, Response.beat, h]

/-- A host that takes a beat at each edge gets all beats of the response (R58), by induction on the bytes left. -/
theorem run_delivers (bs : List Byte) {s : State} {r : Response} {es rest : List Edge} (hb : r.bytes = bs)
    (hr : s.rsp = some r) (he : s.edges = es ++ rest) (hlen : es.length = bs.length + 1) (ht : ∀ e ∈ es, e.Takes) :
    ∃ t : State, Host.Core.run core (bs.length + 1) s = .next t ∧
      t.received = s.received ++ r.beats ∧ t.rsp = none ∧ t.nine = s.nine ∧ t.edges = rest := by
  induction bs generalizing s r es with
  | nil =>
    obtain ⟨e, rfl⟩ := List.length_eq_one_iff.mp hlen
    have hafter : r.afterBeat = none := by rw [Response.afterBeat, hb]
    have hstep : step s = .next (s.afterTake r e rest) := step_of_takes hr he (ht e (by simp))
    exact ⟨s.afterTake r e rest, run_succ_of_step hstep, by simp [Response.beats_of_nil hb], hafter, rfl, rfl⟩
  | cons b bs ih =>
    obtain ⟨e, es, rfl⟩ := List.exists_cons_of_length_eq_add_one hlen
    have hstep : step s = .next (s.afterTake r e (es ++ rest)) := step_of_takes hr he (ht e (by simp))
    have hafter : r.afterBeat = some { r with bytes := bs } := by rw [Response.afterBeat, hb]
    obtain ⟨t, hrun, hrec, hrsp, hnine, hedges⟩ :=
      ih (s := s.afterTake r e (es ++ rest)) rfl hafter rfl (Nat.succ.inj hlen) fun e' he' => ht e' (List.mem_cons_of_mem e he')
    exact ⟨t, (run_succ_of_step hstep).trans hrun, by simp [hrec, Response.beats_of_cons hb], hrsp, hnine, hedges⟩

/-- Settles O47: the beats are delivered along the bytes of the response, and without a response the block is ready. -/
theorem responseIsDeliveredBeatByBeat : Obligations.ResponseIsDeliveredBeatByBeat := by
  intro s r es rest hr he hlen ht
  obtain ⟨t, hrun, hrec, hrsp, hnine, hedges⟩ := run_delivers r.bytes rfl hr he hlen ht
  exact ⟨t, hrun, hrec, hrsp, hnine, hedges, by simp [cmdReady, hrsp]⟩

end Sys2Proof.Machine
end

section
/-!
PROOFS. The statements about the step unit (40_step_unit.md). A state is four words, so there are `2^128` of them. The
period of a non-zero state is `2^128 - 1` by the certificates of R74; the steps below the period are then a bijection onto
the non-zero states, and R75 counts the non-zero states with a given `w`.
-/

namespace Sys2Proof.Machine

/-! ## The states counted -/

/-- A state is its four words (R20). -/
def Gen.equivWords : Gen ≃ Word × Word × Word × Word where
  toFun g := (g.x, g.y, g.z, g.w)
  invFun v := { x := v.1, y := v.2.1, z := v.2.2.1, w := v.2.2.2 }
  left_inv _ := rfl
  right_inv _ := rfl

theorem Gen.finite : Finite Gen := Finite.of_equiv _ Gen.equivWords.symm

theorem card_word : Nat.card Word = 2 ^ 32 := by
  rw [Nat.card_congr BitVec.equivFin.toEquiv, Nat.card_fin]

theorem Gen.card_eq : Nat.card Gen = 2 ^ 128 := by
  simp only [Nat.card_congr Gen.equivWords, Nat.card_prod, card_word, ← Nat.pow_add]

theorem Gen.ncard_ne_zero : ({Gen.zero}ᶜ : Set Gen).ncard = 2 ^ 128 - 1 := by
  have := Gen.finite
  rw [Set.ncard_compl, Gen.card_eq, Set.ncard_singleton]

/-- The states whose last raw word is `v` are given by their other three words. -/
def Gen.equivOfW (v : Word) : {g : Gen | g.w = v} ≃ Word × Word × Word where
  toFun g := (g.1.x, g.1.y, g.1.z)
  invFun t := ⟨{ x := t.1, y := t.2.1, z := t.2.2, w := v }, rfl⟩
  left_inv g := Subtype.ext (Gen.ext_words rfl rfl rfl (Eq.symm g.2))
  right_inv _ := rfl

theorem Gen.ncard_w_eq (v : Word) : {g : Gen | g.w = v}.ncard = 2 ^ 96 := by
  rw [← Nat.card_coe_set_eq, Nat.card_congr (Gen.equivOfW v)]
  simp only [Nat.card_prod, card_word, ← Nat.pow_add]

/-- Of the non-zero states, one fewer has `w = 0` than has any other word there (R75). -/
theorem Gen.ncard_ne_zero_w_eq (v : Word) :
    ({Gen.zero}ᶜ ∩ {g : Gen | g.w = v}).ncard = if v = 0 then 2 ^ 96 - 1 else 2 ^ 96 := by
  have hw : Gen.zero ∈ {g : Gen | g.w = v} ↔ v = 0 := eq_comm
  rw [Set.inter_comm, ← Set.sdiff_eq]
  split
  case isTrue hv =>
    rw [Set.ncard_sdiff_singleton_of_mem (hw.mpr hv), Gen.ncard_w_eq]
  case isFalse hv =>
    rw [Set.sdiff_singleton_eq_self (hw.not.mpr hv), Gen.ncard_w_eq]

/-! ## The period of a non-zero state -/

theorem Gen.advance_ne_zero {g : Gen} (hg : g ≠ Gen.zero) (k : Nat) : g.advance k ≠ Gen.zero := fun h =>
  hg (Gen.advance_eq_zero h)

theorem Gen.step_ne_zero {g : Gen} (hg : g ≠ Gen.zero) : g.step ≠ Gen.zero := Gen.advance_ne_zero hg 1

/-- The calls of `Step()` counted by `Gen.advance` are the iterates of the step. -/
theorem Gen.iterate_step (k : Nat) (g : Gen) : Gen.step^[k] g = g.advance k := by
  induction k generalizing g with
  | zero => rfl
  | succ k ih => rw [Function.iterate_succ_apply, ih, Gen.advance_succ]

theorem Gen.isPeriodicPt_step_iff {k : Nat} {g : Gen} : Function.IsPeriodicPt Gen.step k g ↔ g.advance k = g := by
  rw [Function.IsPeriodicPt, Function.IsFixedPt, Gen.iterate_step]

/-- A period none of whose quotients by a prime is a period is the least one. -/
theorem minimalPeriod_eq_of_prime_quotients {α : Type*} {f : α → α} {x : α} {n : Nat}
    (hn : Function.IsPeriodicPt f n x) (hq : ∀ p, p.Prime → p ∣ n → ¬ Function.IsPeriodicPt f (n / p) x) :
    Function.minimalPeriod f x = n := by
  obtain ⟨a, ha⟩ := hn.minimalPeriod_dvd
  by_cases h1 : a = 1
  · rw [ha, h1, Nat.mul_one]
  · obtain ⟨p, hp, b, rfl⟩ := Nat.exists_prime_and_dvd h1
    have hpn : n = p * (Function.minimalPeriod f x * b) := by rw [ha, Nat.mul_left_comm]
    have hb : n / p = Function.minimalPeriod f x * b := by rw [hpn, Nat.mul_div_cancel_left _ hp.pos]
    exact absurd ((Function.isPeriodicPt_minimalPeriod f x).mul_const b) (hb ▸ hq p hp ⟨_, hpn⟩)

/-- Any state returns after `2^128 - 1` steps. -/
theorem Gen.advance_period (g : Gen) : g.advance (2 ^ 128 - 1) = g := by
  rw [← comb_polyPow 128 _ (by omega), polyPow_period, Gen.comb_one]

/-- The prime factors of `2^128 - 1` are those with a certificate (R74). -/
theorem exists_certificate_of_dvd {p : Nat} (hp : p.Prime) (hd : p ∣ 2 ^ 128 - 1) :
    ∃ c ∈ periodCertificates, c.1 = p := by
  rw [← periodCertificates_product, hp.prime.dvd_prod_iff] at hd
  obtain ⟨q, hq, hpq⟩ := hd
  obtain ⟨c, hc, rfl⟩ := List.mem_map.mp hq
  exact ⟨c, hc, ((Nat.prime_dvd_prime_iff_eq hp (periodCertificates_prime c hc)).mp hpq).symm⟩

theorem Gen.minimalPeriod_step {g : Gen} (hg : g ≠ Gen.zero) : Function.minimalPeriod Gen.step g = 2 ^ 128 - 1 := by
  refine minimalPeriod_eq_of_prime_quotients (Gen.isPeriodicPt_step_iff.mpr g.advance_period) fun p hp hd hper => ?_
  obtain ⟨c, hc, rfl⟩ := exists_certificate_of_dvd hp hd
  have hlt : (2 ^ 128 - 1) / c.1 < 2 ^ 128 := lt_of_le_of_lt (Nat.div_le_self _ _) (by omega)
  exact hg (no_return_of_inverse hlt (periodCertificates_ok c hc) (Gen.isPeriodicPt_step_iff.mp hper))

/-- Below the period the steps of a non-zero state pass through each non-zero state once (R74): they are all different,
and there are as many of them as there are non-zero states. -/
theorem Gen.bijOn_advance {g : Gen} (hg : g ≠ Gen.zero) :
    Set.BijOn (Gen.advance · g) (Set.Iio (2 ^ 128 - 1)) {Gen.zero}ᶜ := by
  have := Gen.finite
  have hinj : Set.InjOn (Gen.advance · g) (Set.Iio (2 ^ 128 - 1)) := by
    have := Function.iterate_injOn_Iio_minimalPeriod (f := Gen.step) (x := g)
    simpa only [Gen.iterate_step, Gen.minimalPeriod_step hg] using this
  have hsub : (Gen.advance · g) '' Set.Iio (2 ^ 128 - 1) ⊆ {Gen.zero}ᶜ := by
    rintro _ ⟨k, -, rfl⟩
    exact Gen.advance_ne_zero hg k
  have hcard : ((Gen.advance · g) '' Set.Iio (2 ^ 128 - 1)).ncard = 2 ^ 128 - 1 := by
    rw [hinj.ncard_image, ← Finset.coe_range, Set.ncard_coe_finset, Finset.card_range]
  exact Set.eq_of_subset_of_ncard_le hsub (Gen.ncard_ne_zero.trans hcard.symm).le ▸ hinj.bijOn_image

/-! ## The inverse and the window -/

/-- With the part of `w` taken out of the raw word, undoing the two shifts of `t` gives back `x` (R72). -/
theorem Gen.back_step (g : Gen) : g.step.back = g := by
  have hu : g.raw 0 ^^^ (g.w ^^^ g.w >>> 19) = (g.x ^^^ g.x <<< 11) ^^^ (g.x ^^^ g.x <<< 11) >>> 8 := by
    rw [Gen.raw_zero_eq, BitVec.xor_comm, ← BitVec.xor_assoc, BitVec.xor_self, BitVec.zero_xor]
  simp only [Gen.back, Gen.step_eq, hu, undo_shiftRight, undo_shiftLeft]

/-- After four steps the words before them are gone. -/
theorem Gen.advance_four (g : Gen) :
    g.advance 4 = { x := g.raw 0, y := g.raw 1, z := g.raw 2, w := g.raw 3 } := rfl

/-! ## The statements -/

/-- Settles O11: the least period is `2^128 - 1`, and below it the steps are onto the non-zero states. -/
theorem nonZeroStatesFormOneFullCycle : Obligations.NonZeroStatesFormOneFullCycle := by
  intro g hg
  refine ⟨g.advance_period, fun k h0 hlt he => ?_, fun h hh => (Gen.bijOn_advance hg).surjOn hh⟩
  rw [← Gen.minimalPeriod_step hg] at hlt
  exact Function.not_isPeriodicPt_of_pos_of_lt_minimalPeriod h0.ne' hlt (Gen.isPeriodicPt_step_iff.mpr he)

/-- Settles O12: raw word `k` is the `w` of the state `k` steps after the successor, so the numbers of the draws that
return `v` are in bijection with the non-zero states whose `w` is `v`. -/
theorem nonZeroRawWordsAreEquallyOftenAndZeroOnceLess :
    Obligations.NonZeroRawWordsAreEquallyOftenAndZeroOnceLess := by
  intro g hg v
  have hbij : Set.BijOn (Gen.advance · g.step) (Set.Iio (2 ^ 128 - 1) ∩ {k | g.raw k = v})
      ({Gen.zero}ᶜ ∩ {h | h.w = v}) :=
    (Gen.bijOn_advance (Gen.step_ne_zero hg)).inter_mapsTo (fun _ hk => hk) fun _ hk => hk.2
  rw [← Gen.ncard_ne_zero_w_eq, ← hbij.ncard_eq, ← Set.ncard_coe_finset, Finset.coe_filter]
  simp only [Finset.mem_range]
  rfl

/-- Settles O8: the raw word and the three moves are linear. -/
theorem stepIsLinear : Obligations.StepIsLinear := Gen.step_distrib_xor

/-- Settles O9: the formulas of R72 undo the step, so it is injective, hence onto the finitely many states, and what undoes
it is its inverse on both sides. -/
theorem stepIsABijectionWithTheSpecsInverse : Obligations.StepIsABijectionWithTheSpecsInverse := by
  have := Gen.finite
  have hleft : Function.LeftInverse Gen.back Gen.step := Gen.back_step
  have hbij : Function.Bijective Gen.step := Finite.injective_iff_bijective.mp hleft.injective
  exact ⟨hbij, fun g => ⟨hleft g, hleft.rightInverse_of_surjective hbij.surjective g⟩⟩

/-- Settles O10: the step fixes the all-zero state and is injective. -/
theorem zeroStateIsAnUnreachableFixedPoint : Obligations.ZeroStateIsAnUnreachableFixedPoint :=
  ⟨Gen.zero_step, congrArg Gen.w Gen.zero_step, fun _ hg => ⟨Gen.step_ne_zero hg, Gen.advance_ne_zero hg⟩⟩

/-- Settles O13: the four words after `k` steps are gone after four more, and the next raw word is read from the new ones. -/
theorem stateIsTheLastFourRawWords : Obligations.StateIsTheLastFourRawWords := by
  intro g k
  have hstate : g.advance (k + 4) = { x := g.raw k, y := g.raw (k + 1), z := g.raw (k + 2), w := g.raw (k + 3) } := by
    simp only [Gen.advance_add, Gen.advance_four, Gen.raw_advance, Nat.add_zero]
  have hraw : g.raw (k + 4) = (g.advance (k + 4)).raw 0 := (g.raw_advance (k + 4) 0).symm
  exact ⟨hstate, by rw [hraw, Gen.raw_zero_eq, hstate]⟩

end Sys2Proof.Machine
end

section
/-!
PROOFS. The redraw loops end, so every well-formed command is answered. A bounded draw meets a word below its limit
among any 129 (R96). Four attempts of R123 that are all zero leave only small words in the state, and a small word in
`x` is seen again in bits 16 to 11 of the next raw word, so the state was all-zero, which R21 forbids.
-/

namespace Sys2Proof.Machine

/-! ## The bounded draw ends -/

/-- A word whose top bit is 0 lies below every limit of R90. -/
theorem exists_firstBelow_boundedLimit {n : Nat} (h1 : 1 ≤ n) (h2 : n < 2 ^ 32) (g : Gen) :
    ∃ k, k ≤ 128 ∧ g.FirstBelow (boundedLimit n) k := by
  obtain ⟨m, hm, htop⟩ := exists_topBit_clear g
  have hhalf : (g.raw m).toNat < 2 ^ 31 := by
    have hmsb : (g.raw m).msb = false := htop
    exact BitVec.toNat_lt_of_msb_false hmsb
  obtain ⟨k, hk, hf⟩ := Gen.exists_firstBelow (hhalf.trans (half_lt_boundedLimit h1 h2))
  exact ⟨k, hk.trans hm, hf⟩

/-- A bounded draw of a legal width answers, for the first word below the limit (R90, R96). -/
theorem exists_drawBounded_eq {n : Nat} (h1 : 1 ≤ n) (h2 : n < 2 ^ 32) (s : State) (cont : Nat → State → Result) :
    ∃ k, drawBounded n s cont = cont ((s.gen.raw k).toNat % n) (s.withGen (s.gen.advance (k + 1))) := by
  obtain ⟨k, hk, hf⟩ := exists_firstBelow_boundedLimit h1 h2 s.gen
  have hfuel : k < Config.maxDraws := hk.trans_lt (by decide)
  exact ⟨k, by rw [drawBounded, bounded, boundedLoop_of_first hf hfuel]⟩

/-! ## The redraw of `NEXT_DOUBLE_NZ` ends -/

/-- An attempt gives zero only if both of its words are small. -/
theorem Gen.raw_lt_of_attempt_eq_zero {g : Gen} {k : Nat} (h : g.attempt (k / 2) = 0) : (g.raw k).toNat < 64 := by
  rw [Gen.attempt, join53_eq] at h
  obtain hk | hk : k = 2 * (k / 2) ∨ k = 2 * (k / 2) + 1 := by omega
  · rw [hk]; omega
  · rw [hk]; omega

/-- A small `x` other than 0 shows in bits 16 to 11 of what `Step()` makes of it. -/
theorem eq_zero_of_mix_lt {x : Word} (hx : x.toNat < 64)
    (h : ((x ^^^ x <<< 11) ^^^ (x ^^^ x <<< 11) >>> 8).toNat < 64) : x = 0 := by
  have small : ∀ i : Fin 64,
      ((BitVec.ofNat 32 i ^^^ BitVec.ofNat 32 i <<< 11) ^^^
        (BitVec.ofNat 32 i ^^^ BitVec.ofNat 32 i <<< 11) >>> 8).toNat < 64 → BitVec.ofNat 32 i = 0 := by
    decide
  have hxi : BitVec.ofNat 32 x.toNat = x := by simp
  have hsmall := small ⟨x.toNat, hx⟩
  simp only [hxi] at hsmall
  exact hsmall h

/-- Where `x`, `w` and the next raw word are small, `x` is 0 (R70). -/
theorem Gen.x_eq_zero_of_small {g : Gen} (hx : g.x.toNat < 64) (hw : g.w.toNat < 64) (hr : (g.raw 0).toNat < 64) :
    g.x = 0 := by
  have hw0 : g.w >>> 19 = 0 := by
    apply BitVec.eq_of_toNat_eq
    rw [BitVec.toNat_ushiftRight, Nat.shiftRight_eq_div_pow]
    exact Nat.div_eq_of_lt (by omega)
  have hmix : (g.x ^^^ g.x <<< 11) ^^^ (g.x ^^^ g.x <<< 11) >>> 8 = g.w ^^^ g.raw 0 := by
    rw [Gen.raw_zero_eq, hw0]
    simp [← BitVec.xor_assoc]
  refine eq_zero_of_mix_lt hx ?_
  rw [hmix, BitVec.toNat_xor]
  exact Nat.xor_lt_two_pow (n := 6) hw hr

/-- The word `k` of a stream is the `x` of a later state, whose `w` and next raw word are words `k + 3` and `k + 4`. -/
theorem Gen.raw_eq_zero_of_small {g : Gen} {k : Nat} (h0 : (g.raw k).toNat < 64) (h3 : (g.raw (k + 3)).toNat < 64)
    (h4 : (g.raw (k + 4)).toNat < 64) : g.raw k = 0 := by
  simp only [← Gen.raw_advance g k] at h3 h4
  rw [← Nat.add_zero k, ← Gen.raw_advance] at h0 ⊢
  rw [← Nat.add_zero 4, ← Gen.raw_advance] at h4
  exact Gen.x_eq_zero_of_small (g := (g.advance k).advance 4) h0 h3 h4

/-- From a non-zero state one of the first four attempts of R123 is not zero. -/
theorem Gen.exists_attempt_ne_zero {g : Gen} (hg : g ≠ Gen.zero) : ∃ j, j ≤ 3 ∧ g.attempt j ≠ 0 := by
  by_contra hn
  have small (k : Nat) (hk : k < 8) : (g.raw k).toNat < 64 :=
    Gen.raw_lt_of_attempt_eq_zero (not_not.mp fun h => hn ⟨k / 2, by omega, h⟩)
  have zero (k : Nat) (hk : k < 4) : g.raw k = 0 :=
    Gen.raw_eq_zero_of_small (small k (by omega)) (small (k + 3) (by omega)) (small (k + 4) (by omega))
  have hadv : g.advance 4 = Gen.zero :=
    Gen.ext_words (zero 0 (by omega)) (zero 1 (by omega)) (zero 2 (by omega)) (zero 3 (by omega))
  exact hg (Gen.advance_eq_zero hadv)

/-- From a non-zero state the redraw of `NEXT_DOUBLE_NZ` meets a first non-zero attempt. -/
theorem Gen.exists_firstNonZero {g : Gen} (hg : g ≠ Gen.zero) : ∃ k, k ≤ 3 ∧ g.FirstNonZero k := by
  obtain ⟨j, hj, hne⟩ := Gen.exists_attempt_ne_zero hg
  have hex : ∃ k, g.attempt k ≠ 0 := ⟨j, hne⟩
  have hbefore : ∀ i, i < Nat.find hex → g.attempt i = 0 := fun _ hi => not_not.mp (Nat.find_min hex hi)
  exact ⟨Nat.find hex, (Nat.find_min' hex hne).trans hj, hbefore, Nat.find_spec hex⟩

/-! ## Every well-formed command is answered -/

/-- A drawing command is answered where its body is, and before seeding in any case (R132). -/
theorem exists_ifSeeded_next {s : State} {rest : Result} (h : s.seeded = true → ∃ t, rest = .next t) :
    ∃ t, ifSeeded s rest = .next t := by
  cases hs : s.seeded with
  | true => rw [ifSeeded_of_seeded hs]; exact h hs
  | false => exact ⟨_, ifSeeded_of_not_seeded hs rest⟩

/-- A bounded draw behind a range check is answered: refused, or drawn with a legal width (R101, R102). -/
theorem exists_checkedDraw_next {bad : Bool} {err : Error} {n : Nat} {s : State} {cont : Nat → State → Result}
    (hn : bad = false → 1 ≤ n ∧ n < 2 ^ 32) (hcont : ∀ v s', ∃ t, cont v s' = .next t) :
    ∃ t, (if bad then raise err s else drawBounded n s cont) = .next t := by
  cases bad with
  | true => exact ⟨_, if_pos rfl⟩
  | false =>
    obtain ⟨h1, h2⟩ := hn rfl
    obtain ⟨k, hk⟩ := exists_drawBounded_eq h1 h2 s cont
    rw [if_neg Bool.false_ne_true, hk]
    exact hcont _ _

/-- Where R21 holds, a command with operands in range is answered (R130, U9): its redraw, if any, ends. -/
theorem exists_exec_next {i : Instr} {s : State} (hi : i.wellFormed = true) (hs : s.NonDegenerate) :
    ∃ t, exec i s = .next t := by
  cases i with
  | seed | seedDefault => exact ⟨_, rfl⟩
  | nextU u =>
    refine exists_ifSeeded_next fun _ => exists_checkedDraw_next (fun hb => ?_) fun _ _ => ⟨_, rfl⟩
    obtain ⟨-, hu⟩ := (isInt32_iff u).mp hi
    have hpos : ¬ u ≤ 0 := of_decide_eq_false hb
    omega
  | nextLU l u =>
    refine exists_ifSeeded_next fun _ => exists_checkedDraw_next (fun hb => ?_) fun _ _ => ⟨_, rfl⟩
    obtain ⟨hl, hu⟩ : isInt32 l = true ∧ isInt32 u = true := by simpa [Instr.wellFormed] using hi
    rw [isInt32_iff] at hl hu
    have hlt : ¬ u ≤ l := of_decide_eq_false hb
    rw [rangeWidth]
    omega
  | nextDoubleNZ =>
    refine exists_ifSeeded_next fun hseed => ?_
    obtain ⟨k, hk, hf⟩ := Gen.exists_firstNonZero (hs hseed)
    have hfuel : k < Config.maxDraws := hk.trans_lt (by decide)
    rw [nonZeroLoop_of_first hf hfuel]
    exact ⟨_, rfl⟩
  | _ => exact exists_ifSeeded_next fun _ => ⟨_, rfl⟩

end Sys2Proof.Machine
end

section
/-!
PROOFS. The statements about seeding (41_seeding.md). A command reads the nine registers and `entropy` only
(`visible_exec_congr`), so what a host sees of a list of commands is a function of the registers it starts from, and a
seeding command writes all nine of them.
-/

namespace Sys2Proof.Machine

/-! ## What a command reads -/

/-- What a host sees of a result, with the nine registers after it; nothing of a stop. -/
def visible : Result → Option (Option Response × Nine)
  | .next t => some (t.rsp, t.nine)
  | .fault _ => none
  | .refused _ => none

@[simp] theorem visible_next (t : State) : visible (.next t) = some (t.rsp, t.nine) := rfl

theorem next_of_visible {res : Result} {p : Option Response × Nine} (h : visible res = some p) :
    ∃ t, res = .next t ∧ t.rsp = p.1 ∧ t.nine = p.2 := by
  cases res with
  | next t => cases h; exact ⟨t, rfl, rfl, rfl⟩
  | fault | refused => cases h

/-- The registers and `entropy` of `s` with every other field taken from `p`. -/
def State.withRestOf (s p : State) : State :=
  { s with rsp := p.rsp, held := p.held, edges := p.edges, received := p.received, resets := p.resets }

@[simp] theorem State.withRestOf_gen (s p : State) : (s.withRestOf p).gen = s.gen := rfl

/-- States that agree on the nine registers and on `entropy` differ in the rest only. -/
theorem State.eq_withRestOf {s p : State} (hn : s.nine = p.nine) (he : s.entropy = p.entropy) : p = s.withRestOf p := by
  obtain ⟨⟩ := s
  obtain ⟨⟩ := p
  cases hn
  cases he
  rfl

theorem visible_ifSeeded_withRestOf {s p : State} {rest rest' : Result} (h : visible rest = visible rest') :
    visible (ifSeeded (s.withRestOf p) rest) = visible (ifSeeded s rest') := by
  cases hs : s.seeded with
  | true => rwa [ifSeeded_of_seeded hs, ifSeeded_of_seeded (s := s.withRestOf p) hs]
  | false => rw [ifSeeded_of_not_seeded hs, ifSeeded_of_not_seeded (s := s.withRestOf p) hs]; rfl

theorem visible_checkedDraw_withRestOf {bad : Bool} {err : Error} {n : Nat} {s p : State} {k k' : Nat → State → Result}
    (h : ∀ v g, visible (k v ((s.withRestOf p).withGen g)) = visible (k' v (s.withGen g))) :
    visible (if bad then raise err (s.withRestOf p) else drawBounded n (s.withRestOf p) k) =
      visible (if bad then raise err s else drawBounded n s k') := by
  cases bad with
  | true => rfl
  | false =>
    rw [if_neg Bool.false_ne_true, if_neg Bool.false_ne_true, drawBounded, drawBounded, State.withRestOf_gen]
    cases bounded n s.gen with
    | none => rfl
    | some r => exact h r.1 r.2

theorem refillBits_withRestOf (s p : State) : refillBits (s.withRestOf p) = (refillBits s).withRestOf p := by
  by_cases h : s.bitcnt = 0
  · rw [refillBits_of_empty h, refillBits_of_empty (s := s.withRestOf p) h]; rfl
  · rw [refillBits_of_not_empty h, refillBits_of_not_empty (s := s.withRestOf p) h]

theorem refillBytes_withRestOf (s p : State) : refillBytes (s.withRestOf p) = (refillBytes s).withRestOf p := by
  by_cases h : s.bytecnt = 0
  · rw [refillBytes_of_empty h, refillBytes_of_empty (s := s.withRestOf p) h]; rfl
  · rw [refillBytes_of_not_empty h, refillBytes_of_not_empty (s := s.withRestOf p) h]

/-- No command reads the fields outside the nine registers and `entropy` (R29). -/
theorem visible_exec_withRestOf (i : Instr) (s p : State) : visible (exec i (s.withRestOf p)) = visible (exec i s) := by
  cases i with
  | seed | seedDefault => rfl
  | nextU | nextLU => exact visible_ifSeeded_withRestOf (visible_checkedDraw_withRestOf fun _ _ => rfl)
  | nextDoubleNZ =>
    refine visible_ifSeeded_withRestOf ?_
    rw [State.withRestOf_gen]
    cases nonZeroLoop Config.maxDraws s.gen <;> rfl
  | nextBool =>
    refine visible_ifSeeded_withRestOf ?_
    rw [refillBits_withRestOf]; rfl
  | nextByte =>
    refine visible_ifSeeded_withRestOf ?_
    rw [refillBytes_withRestOf]; rfl
  | _ => exact visible_ifSeeded_withRestOf rfl

/-- What a host sees of a command is a function of the nine registers and `entropy` (R29, R85). -/
theorem visible_exec_congr (i : Instr) {s p : State} (hn : s.nine = p.nine) (he : s.entropy = p.entropy) :
    visible (exec i s) = visible (exec i p) := by
  rw [State.eq_withRestOf hn he, visible_exec_withRestOf]

/-! ## Lists of commands -/

/-- A list of commands whose first is answered and whose rest is answered from there. -/
theorem portTrace_cons_of_next {e : DWord} {i : Instr} {is : List (DWord × Instr)} {s t u : State} {r : Response}
    {rs : List Response} (hx : exec i { s with entropy := e } = .next t) (hr : t.rsp = some r)
    (ht : portTrace is t = some (rs, u)) : portTrace ((e, i) :: is) s = some (r :: rs, u) := by
  simp only [portTrace, hx, hr, ht]

/-- A command that is answered gives the first response, and the rest is observed from where it ends. -/
theorem observed_portTrace_cons_of_next {e : DWord} {i : Instr} (is : List (DWord × Instr)) {s t : State}
    (hx : exec i { s with entropy := e } = .next t) :
    observed (portTrace ((e, i) :: is) s) =
      t.rsp.bind fun r => (observed (portTrace is t)).map fun q => (r :: q.1, q.2) := by
  simp only [portTrace, hx]
  cases t.rsp with
  | none => rfl
  | some r =>
    cases portTrace is t with
    | none => rfl
    | some q => rfl

/-- A command that stops ends the observation. -/
theorem observed_portTrace_cons_of_stop {e : DWord} {i : Instr} (is : List (DWord × Instr)) {s : State}
    (hv : visible (exec i { s with entropy := e }) = none) : observed (portTrace ((e, i) :: is) s) = none := by
  cases hx : exec i { s with entropy := e } with
  | next t => simp [hx] at hv
  | fault f => simp [portTrace, hx, observed]
  | refused r => simp [portTrace, hx, observed]

/-- Two lists with the same tail are observed alike if their first commands are, and their tail is from equal
registers. -/
theorem observed_portTrace_cons_congr {e e' : DWord} {i i' : Instr} {is : List (DWord × Instr)} {s s' : State}
    (hv : visible (exec i { s with entropy := e }) = visible (exec i' { s' with entropy := e' }))
    (htail : ∀ t t' : State, t.nine = t'.nine → observed (portTrace is t) = observed (portTrace is t')) :
    observed (portTrace ((e, i) :: is) s) = observed (portTrace ((e', i') :: is) s') := by
  cases h : visible (exec i { s with entropy := e }) with
  | none => rw [observed_portTrace_cons_of_stop is h, observed_portTrace_cons_of_stop is (hv.symm.trans h)]
  | some p =>
    obtain ⟨t, hx, hr, hn⟩ := next_of_visible h
    obtain ⟨t', hx', hr', hn'⟩ := next_of_visible (hv.symm.trans h)
    rw [observed_portTrace_cons_of_next is hx, observed_portTrace_cons_of_next is hx', hr, hr',
      htail t t' (hn.trans hn'.symm)]

/-- The nine registers determine what a host observes of any list of commands (R85). -/
theorem observed_portTrace_congr (is : List (DWord × Instr)) {s s' : State} (hn : s.nine = s'.nine) :
    observed (portTrace is s) = observed (portTrace is s') := by
  induction is generalizing s s' with
  | nil => exact congrArg (fun n => some (([] : List Response), n)) hn
  | cons p is ih => exact observed_portTrace_cons_congr (visible_exec_congr p.2 hn rfl) fun _ _ => ih

/-- Once seeded, a list of well-formed commands is answered one by one (R132, R134), and the block stays seeded. -/
theorem exists_portTrace_eq (is : List (DWord × Instr)) (hw : ∀ p ∈ is, p.2.wellFormed = true) {s : State} (hs : s.Inv)
    (hseed : s.seeded = true) : ∃ rs t, portTrace is s = some (rs, t) ∧ rs.length = is.length ∧ t.seeded = true := by
  induction is generalizing s with
  | nil => exact ⟨[], s, rfl, rfl, hseed⟩
  | cons p is ih =>
    obtain ⟨hp, his⟩ := List.forall_mem_cons.mp hw
    obtain ⟨t, hx⟩ := exists_exec_next (s := { s with entropy := p.1 }) hp hs.1
    have ha := exec_answer hx
    obtain ⟨r, hr, -⟩ := ha.effect.response
    obtain ⟨rs, u, ht, hlen, hu⟩ := ih his (ha.effect.inv hs) (ha.keeps_seeded hseed)
    exact ⟨r :: rs, u, portTrace_cons_of_next hx hr ht, congrArg (· + 1) hlen, hu⟩

/-! ## Seeds -/

theorem remapSeed_zero : remapSeed 0 = 0x9E3779B97F4A7C15#64 := rfl

theorem remapSeed_of_ne_zero {v : DWord} (h : v ≠ 0) : remapSeed v = v := if_neg h

/-- The remap identifies 0 with the constant and nothing else (R80, R81). -/
theorem remapSeed_eq_iff (u v : DWord) : remapSeed u = remapSeed v ↔
    u = v ∨ (u = 0 ∧ v = 0x9E3779B97F4A7C15#64) ∨ (u = 0x9E3779B97F4A7C15#64 ∧ v = 0) := by
  constructor
  · intro h
    by_cases hu : u = 0
    · by_cases hv : v = 0
      · exact .inl (hu.trans hv.symm)
      · rw [hu, remapSeed_zero, remapSeed_of_ne_zero hv] at h
        exact .inr (.inl ⟨hu, h.symm⟩)
    · rw [remapSeed_of_ne_zero hu] at h
      by_cases hv : v = 0
      · exact .inr (.inr ⟨h.trans (congrArg remapSeed hv), hv⟩)
      · exact .inl (h.trans (remapSeed_of_ne_zero hv))
  · rintro (rfl | ⟨rfl, rfl⟩ | ⟨rfl, rfl⟩) <;> rfl

/-- The words `x` and `y` give the remapped seed back (R81). -/
theorem seedWords_eq_iff (u v : DWord) : seedWords u = seedWords v ↔ remapSeed u = remapSeed v := by
  refine ⟨fun h => ?_, fun h => by rw [seedWords, seedWords, h]⟩
  have hlow : (remapSeed u).extractLsb' 0 32 = (remapSeed v).extractLsb' 0 32 := congrArg Gen.x h
  have hhigh : (remapSeed u).extractLsb' 32 32 = (remapSeed v).extractLsb' 32 32 :=
    (BitVec.xor_left_inj Config.seedY).mp (congrArg Gen.y h)
  rw [← seedOperand_halves (remapSeed u), hlow, hhigh, seedOperand_halves]

/-- The four words with the remap and the constants of R80 written out. -/
theorem seedWords_eq (v : DWord) : seedWords v =
    { x := (if v = 0 then 0x7F4A7C15#32 else v.extractLsb' 0 32)
      y := (if v = 0 then 0xAC00F67E#32 else v.extractLsb' 32 32 ^^^ 0x32378FC7#32)
      z := 0xD55F8767#32
      w := 0x104AA1AD#32 } := by
  by_cases hv : v = 0
  · rw [if_pos hv, if_pos hv, hv]; rfl
  · rw [if_neg hv, if_neg hv, seedWords, remapSeed_of_ne_zero hv]

theorem seedExpand_inv (v : DWord) (s : State) : ((seedExpand v s).withResponse ⟨.ok, 0, []⟩).Inv :=
  ⟨fun _ => seedWords_ne_zero v, bitCacheOk_of_empty rfl rfl, byteCacheOk_of_empty rfl rfl,
    responseOk_withResponse (wellFormed_ok _ _)⟩

/-! ## The statements -/

/-- Settles O17: a seeding command answers alike and writes all nine registers, which determine what is observed of the
commands after it; the state it leaves meets the invariant, so each of those is answered. -/
theorem seedDeterminesEverythingAfterIt : Obligations.SeedDeterminesEverythingAfterIt := by
  intro v e e' is s s'
  refine ⟨observed_portTrace_cons_congr rfl fun _ _ => observed_portTrace_congr is,
    observed_portTrace_cons_congr rfl fun _ _ => observed_portTrace_congr is, fun hw => ?_⟩
  obtain ⟨rs, t, ht, hlen, hseed⟩ := exists_portTrace_eq is hw (seedExpand_inv v { s with entropy := e }) rfl
  exact ⟨_, t, portTrace_cons_of_next rfl rfl ht, congrArg (· + 1) hlen, hseed⟩

/-- Settles O16: the constants in `z` and `w` are not 0, and `x` and `y` give back the seed up to the remap. -/
theorem seedsAreNonZeroAndDistinct : Obligations.SeedsAreNonZeroAndDistinct := fun u v =>
  ⟨seedWords_ne_zero u, (seedWords_eq_iff u v).trans (remapSeed_eq_iff u v)⟩

/-- Settles O14, from the four words written out and the decoding of opcode 0x01. -/
theorem seedLoadsTheExpandedSeed : Obligations.SeedLoadsTheExpandedSeed := by
  refine ⟨fun v s => ?_, fun a b => ?_⟩
  · rw [← seedWords_eq]; rfl
  · rw [← seedOperand_eq_ofNat]
    exact decode_commandWord (.seed 0) a b

/-- Settles O15: the accepting edge samples `entropy`, and opcode 0x02 is `SEED_DEFAULT` whatever the fields. -/
theorem seedDefaultUsesTheEntropyPort : Obligations.SeedDefaultUsesTheEntropyPort := by
  refine ⟨fun s => ⟨_, rfl, rfl⟩, fun s e rest a b ha hc => ?_⟩
  have hd : decode e.cmd = .ok .seedDefault := by
    rw [hc]
    exact decode_commandWord .seedDefault a b
  rw [step_of_accepts ha, accept, hd]
  rfl

end Sys2Proof.Machine
end

section
/-!
PROOFS. The statements about the bounded draw (42_bias_avoidance_modulo.md), and the one that rests on its end: since the
redraw loops end where R21 holds, every accepted word is answered, and a clock edge either has a next state or is refused
for what the host does (`onEdge_next_or_refused`).
-/

namespace Sys2Proof.Machine

/-! ## The limit -/

/-- The limit is a multiple of `n` (R90). -/
theorem dvd_boundedLimit (n : Nat) : n ∣ boundedLimit n := Nat.dvd_sub_mod (2 ^ 32)

/-- The limit and the remainder it cuts off make up `2^32`. -/
theorem boundedLimit_add_mod (n : Nat) : boundedLimit n + 2 ^ 32 % n = 2 ^ 32 := Nat.sub_add_cancel (Nat.mod_le _ _)

/-! ## Every accepted word is answered -/

/-- Where R21 holds, every command word is answered: what decodes is a command with operands in range, and a reserved
opcode is an error (R133). -/
theorem exists_accept_next (c : CmdWord) {s : State} (hs : s.NonDegenerate) : ∃ t, accept c s = .next t := by
  cases hc : decode c with
  | ok i =>
    rw [accept, hc]
    exact exists_exec_next (wellFormed_of_decode hc) hs
  | error err =>
    rw [accept, hc]
    exact ⟨_, raise_eq _ _⟩

/-- Where R21 holds, an edge has a next state, or it is outside reset and is refused for what the host does there. -/
theorem onEdge_next_or_refused (e : Edge) {s : State} (hs : s.NonDegenerate) :
    (∃ t, onEdge e s = .next t) ∨ ∃ r, e.rst = false ∧ hostRefusal e s = some r ∧ onEdge e s = .refused r := by
  cases hrst : e.rst with
  | true => exact .inl ⟨_, by rw [onEdge, if_pos hrst]⟩
  | false =>
    have houtside : ¬ e.rst = true := by simp [hrst]
    rw [onEdge, if_neg houtside]
    cases href : hostRefusal e s with
    | some r => exact .inr ⟨r, rfl, rfl, rfl⟩
    | none =>
      refine .inl ?_
      dsimp only
      split_ifs
      · exact exists_accept_next e.cmd hs
      · exact ⟨_, rfl⟩
      · exact ⟨_, rfl⟩
      · exact ⟨_, rfl⟩

/-- Where R21 holds, a step has a next state, or it is refused for what the host does at the next edge. -/
theorem step_next_or_refused {s : State} (hs : s.NonDegenerate) :
    (∃ t, step s = .next t) ∨
    ∃ e rest r, s.edges = e :: rest ∧ e.rst = false ∧ hostRefusal e s = some r ∧ step s = .refused r := by
  cases he : s.edges with
  | nil => exact .inl ⟨s, step_of_no_edge he⟩
  | cons e rest =>
    rw [step_of_edge he]
    obtain hnext | ⟨r, hrst, href, hstep⟩ := onEdge_next_or_refused e (s := { s with edges := rest }) hs
    · exact .inl hnext
    · exact .inr ⟨e, rest, r, rfl, hrst, href, hstep⟩

/-! ## The obligations -/

/-- Settles O44: a step has a next state, or the host is the cause of its refusal. -/
theorem stepsNeverFaultAndRefuseOnlyTheHost : Obligations.StepsNeverFaultAndRefuseOnlyTheHost := by
  rintro s ⟨hgen, -⟩
  obtain ⟨t, hnext⟩ | ⟨e, rest, r, he, hrst, href, hstep⟩ := step_next_or_refused hgen
  · simp [hnext]
  · refine ⟨by simp [hstep], fun r' hr' => ?_⟩
    obtain rfl : r = r' := Host.Outcome.refused.inj (hstep.symm.trans hr')
    obtain ⟨hvalid, hnever | ⟨hunstable, -, hheld⟩⟩ := hostRefusal_some href
    · exact ⟨e, rest, he, hrst, hvalid, .inl hnever⟩
    · exact ⟨e, rest, he, hrst, hvalid, .inr ⟨hunstable, hheld⟩⟩

/-- Settles O19: the limit falls short of `2^32` by the remainder, which is less than `n`. -/
theorem limitIsTheLargestMultiple : Obligations.LimitIsTheLargestMultiple := by
  intro n h1 h2
  have hsum := boundedLimit_add_mod n
  have hrem : 2 ^ 32 % n < n := Nat.mod_lt _ h1
  refine ⟨dvd_boundedLimit n, boundedLimit_le n, by omega, half_lt_boundedLimit h1 (by omega),
    Nat.mod_eq_sub_mod (by omega), fun r => by omega⟩

/-- Settles O20: the limit is a multiple of `n`, so each residue class has the same number of words below it. -/
theorem acceptedWordsAreUnbiased : Obligations.AcceptedWordsAreUnbiased := by
  intro n h1 _ v hv
  have hmod : boundedLimit n % n = 0 := Nat.mod_eq_zero_of_dvd (dvd_boundedLimit n)
  have hcount := Nat.count_modEq_card (boundedLimit n) h1 v
  rw [hmod, if_neg (Nat.not_lt_zero _), add_zero, Nat.count_eq_card_filter_range] at hcount
  simpa only [Nat.ModEq, Nat.mod_eq_of_lt hv] using hcount

end Sys2Proof.Machine
end

section
/-!
PROOFS. The statements about the integer, Boolean and byte commands (43_range_adapter_int.md). Behind the check of
`seeded` each of them is one of the shared operations: a draw, a bounded draw, the emission of `NEXT_BYTES`, or a cache
that is refilled where it is empty and then gives out its low end. Repeated commands take that low end piece by piece
(`execTrace_replicate`), so a whole word leaves through the cache as it leaves through `NEXT_BYTES`.
-/

namespace Sys2Proof.Machine

/-! ## Commands behind the check of `seeded` -/

/-- Before seeding every drawing command is refused (R132). -/
theorem refusedUnseeded_of_draws {i : Instr} (hi : draws i = true) : RefusedUnseeded i := by
  intro s hs
  cases i with
  | seed | seedDefault => exact absurd hi Bool.false_ne_true
  | _ => exact ifSeeded_of_not_seeded hs _

/-- `NEXT_BOOL` once seeded: a refill where the cache is empty, then its low bit (R105). -/
theorem exec_nextBool {s : State} (hs : s.seeded = true) :
    exec .nextBool s = respond (zextBit ((refillBits s).bitbuf.getLsbD 0)) (dropBit (refillBits s)) :=
  ifSeeded_of_seeded hs _

/-- `NEXT_BYTE` once seeded: a refill where the cache is empty, then its low byte (R106). -/
theorem exec_nextByte {s : State} (hs : s.seeded = true) :
    exec .nextByte s = respond (zextByte (byteOf (refillBytes s).bytebuf 0)) (dropByte (refillBytes s)) :=
  ifSeeded_of_seeded hs _

/-- `NEXT_BYTES` once seeded (R107). -/
theorem exec_nextBytes (len : Nat) {s : State} (hs : s.seeded = true) :
    exec (.nextBytes len) s =
      respondBytes (streamBytes len s.gen) 0 (s.withGen (s.gen.advance ((len + 3) / 4))) := by
  rw [← emit_gen, streamBytes, ← emitWords_gen]
  exact ifSeeded_of_seeded hs _

/-! ## Result placement -/

theorem zextWord_maskSign_eq (r : Word) : zextWord (maskSign r) = BitVec.ofNat 64 (r.toNat % 2 ^ 31) := by
  rw [zextWord_eq, maskSign_toNat]

theorem zextByte_byteOf_zero_eq (v : Word) : zextByte (byteOf v 0) = BitVec.ofNat 64 (v.toNat % 256) := by
  rw [← byteOf_zero_toNat, zextByte, BitVec.ofNat_toNat]

/-- Bits 63:32 of an Int32 result are 0 (R102). -/
theorem int32Data_high (res : Int) : (int32Data res).extractLsb' 32 32 = 0#32 := by
  apply BitVec.eq_of_getLsbD_eq
  intro i hi
  simp [int32Data]

/-- Bits 31:0 of an Int32 result are its two's complement pattern (R102). -/
theorem int32Data_low {res : Int} (h : isInt32 res = true) : ((int32Data res).extractLsb' 0 32).toInt = res := by
  have hlow : (int32Data res).extractLsb' 0 32 = pattern32 res := by
    apply BitVec.eq_of_getLsbD_eq
    intro i hi
    have hi' : i < 64 := by omega
    simp [int32Data, pattern32, hi, hi']
  rw [hlow, ← signed32_eq_toInt, signed32_pattern32 h]

/-- A result that is not negative is placed as a number is (R101, R102). -/
theorem int32Data_natCast {v : Nat} (h : v < 2 ^ 32) : int32Data v = zextNat v := by
  apply BitVec.eq_of_toNat_eq
  rw [int32Data, zextNat, BitVec.ofInt_natCast, BitVec.toNat_setWidth_of_le (by decide), BitVec.toNat_ofNat,
    BitVec.toNat_ofNat, Nat.mod_eq_of_lt h, Nat.mod_eq_of_lt (by omega)]

/-! ## The bounded draws -/

/-- A bounded draw of a legal width hands on the first word below the limit, modulo the width (R90, R96). -/
theorem exists_firstBelow_drawBounded {n : Nat} (h1 : 1 ≤ n) (h2 : n < 2 ^ 32) (s : State) :
    ∃ k, s.gen.FirstBelow (boundedLimit n) k ∧
      ∀ cont, drawBounded n s cont = cont ((s.gen.raw k).toNat % n) (s.withGen (s.gen.advance (k + 1))) := by
  obtain ⟨k, hk, hf⟩ := exists_firstBelow_boundedLimit h1 h2 s.gen
  have hfuel : k < Config.maxDraws := hk.trans_lt (by decide)
  exact ⟨k, hf, fun cont => by rw [drawBounded, bounded, boundedLoop_of_first hf hfuel]⟩

/-- An empty range is refused (R131). -/
theorem exec_of_badRange {i : Instr} {s : State} (hs : s.seeded = true) (hi : badRange i) :
    exec i s = raise .invalidRange s := by
  cases i with
  | nextU u => exact (ifSeeded_of_seeded hs _).trans (if_pos ((emptyBelow_iff u).mpr hi))
  | nextLU l u => exact (ifSeeded_of_seeded hs _).trans (if_pos ((emptyBetween_iff l u).mpr hi))
  | _ => exact hi.elim

/-- `NEXT_U` once seeded, with a range that is not empty (R101). -/
theorem exec_nextU {u : Int} {s : State} (hs : s.seeded = true) (hu : 0 < u) :
    exec (.nextU u) s = drawBounded u.toNat s fun v s' => respond (zextNat v) s' :=
  (ifSeeded_of_seeded hs _).trans (if_neg (mt (emptyBelow_iff u).mp (by omega)))

/-- `NEXT_LU` once seeded, with a range that is not empty (R102). -/
theorem exec_nextLU {l u : Int} {s : State} (hs : s.seeded = true) (hu : l < u) :
    exec (.nextLU l u) s = drawBounded (rangeWidth l u) s fun v s' => respond (int32Data (l + v)) s' :=
  (ifSeeded_of_seeded hs _).trans (if_neg (mt (emptyBetween_iff l u).mp (by omega)))

/-- `lower = 0` behaves exactly as `NEXT_U upper` (R102). -/
theorem exec_nextLU_zero {u : Int} (h : isInt32 u = true) (s : State) : exec (.nextLU 0 u) s = exec (.nextU u) s := by
  cases hs : s.seeded with
  | false =>
    rw [refusedUnseeded_of_draws (i := .nextLU 0 u) rfl s hs, refusedUnseeded_of_draws (i := .nextU u) rfl s hs]
  | true =>
    obtain hu | hu : u ≤ 0 ∨ 0 < u := by omega
    · rw [exec_of_badRange (i := .nextLU 0 u) hs hu, exec_of_badRange (i := .nextU u) hs hu]
    · obtain ⟨-, hmax⟩ := (isInt32_iff u).mp h
      obtain ⟨k, -, hdraw⟩ := exists_firstBelow_drawBounded (n := u.toNat) (by omega) (by omega) s
      have hv : (s.gen.raw k).toNat % u.toNat < u.toNat := Nat.mod_lt _ (by omega)
      rw [exec_nextLU hs hu, exec_nextU hs hu, rangeWidth, sub_zero, hdraw, hdraw, zero_add,
        int32Data_natCast (by omega)]

/-! ## The byte stream -/

/-- Byte `i` of `NEXT_BYTES` is byte `i mod 4` of raw word `i div 4` (R41, R107). -/
theorem streamBytes_getElem (len : Nat) (g : Gen) (i : Nat) (h : i < (streamBytes len g).length) :
    (streamBytes len g)[i] = byteOf (g.raw (i / 4)) (i % 4) := by
  have hi : i < len := by rwa [streamBytes_length] at h
  simp only [streamBytes]
  by_cases hfull : i < (emitWords (len / 4) g).1.length
  · rw [List.getElem_append_left hfull, emitWords_getElem]
  · rw [List.getElem_append_right (Nat.not_lt.mp hfull), emitTail_getElem, Gen.raw_advance]
    rw [emitWords_length] at hfull ⊢
    rw [show len / 4 + 0 = i / 4 by omega, show i - 4 * (len / 4) = i % 4 by omega]

/-- A length that is a multiple of 4 is words only, no tail. -/
theorem streamBytes_four_mul (k : Nat) (g : Gen) : streamBytes (4 * k) g = (emitWords k g).1 := by
  rw [streamBytes, Nat.mul_div_cancel_left k (by decide), Nat.mul_mod_right, emitTail, if_pos rfl, List.append_nil]

/-- `NEXT_BYTES 4(k + 1)` emits one word and then what `NEXT_BYTES 4k` emits after it. -/
theorem streamBytes_four_mul_succ (k : Nat) (g : Gen) :
    streamBytes (4 * (k + 1)) g = wordBytes (g.raw 0) ++ streamBytes (4 * k) g.step := by
  rw [streamBytes_four_mul, streamBytes_four_mul, Gen.raw_zero, emitWords]

/-! ## Traces of repeated commands -/

/-- A list of commands is answered where its first is and the rest is from there. -/
theorem execTrace_cons_iff {i : Instr} {is : List Instr} {s u : State} {rs : List Response} :
    execTrace (i :: is) s = some (rs, u) ↔
      ∃ t r qs, exec i s = .next t ∧ t.rsp = some r ∧ execTrace is t = some (qs, u) ∧ rs = r :: qs := by
  constructor
  · intro h
    rw [execTrace] at h
    split at h
    case h_1 t hx =>
      split at h
      case h_1 r qs v hr ht =>
        cases h
        exact ⟨t, r, qs, hx, hr, ht, rfl⟩
      case h_2 => cases h
    case h_2 => cases h
  · rintro ⟨t, r, qs, hx, hr, ht, rfl⟩
    simp only [execTrace, hx, hr, ht]

/-- One list of commands answered after another. -/
theorem execTrace_append {is js : List Instr} {s t u : State} {rs qs : List Response}
    (hs : execTrace is s = some (rs, t)) (ht : execTrace js t = some (qs, u)) :
    execTrace (is ++ js) s = some (rs ++ qs, u) := by
  induction is generalizing s rs with
  | nil =>
    cases hs
    exact ht
  | cons i is ih =>
    obtain ⟨v, r, rs', hx, hr, hv, rfl⟩ := execTrace_cons_iff.mp hs
    exact execTrace_cons_iff.mpr ⟨v, r, rs' ++ qs, hx, hr, ih hv, rfl⟩

/-- The first command of a list matters through its result only. -/
theorem execTrace_cons_congr {i : Instr} {s s' : State} (is : List Instr) (h : exec i s = exec i s') :
    execTrace (i :: is) s = execTrace (i :: is) s' := by
  rw [execTrace, execTrace, h]

/-- One command repeated: where it leads from stage `k` of a chain of registers to stage `k + 1` with answer `k`, its
repetition leads along the chain with the answers in order. -/
theorem execTrace_replicate {i : Instr} {stage : Nat → Nine} {answer : Nat → Response} {n : Nat}
    (hnext : ∀ k, k < n → ∀ s : State, s.nine = stage k →
      ∃ t, exec i s = .next t ∧ t.rsp = some (answer k) ∧ t.nine = stage (k + 1))
    {s : State} (hs : s.nine = stage 0) :
    ∃ t, execTrace (List.replicate n i) s = some ((List.range n).map answer, t) ∧ t.nine = stage n := by
  induction n with
  | zero => exact ⟨s, rfl, hs⟩
  | succ n ih =>
    obtain ⟨t, htrace, ht⟩ := ih fun k hk => hnext k (by omega)
    obtain ⟨u, hx, hr, hu⟩ := hnext n (by omega) t ht
    have hlast : execTrace [i] t = some ([answer n], u) := execTrace_cons_iff.mpr ⟨u, _, _, hx, hr, rfl, rfl⟩
    rw [List.replicate_succ', List.range_succ, List.map_append]
    exact ⟨u, execTrace_append htrace hlast, hu⟩

/-- The answer that carries one Boolean (R105). -/
def bitAnswer (b : Bool) : Response := { status := .ok, data := zextBit b, bytes := [] }

/-- The answer that carries one byte (R106). -/
def byteAnswer (b : Byte) : Response := { status := .ok, data := zextByte b, bytes := [] }

/-! ## Taking from the caches -/

/-- The registers after `k` bits are taken from the Boolean cache (R105). -/
def Nine.takeBits (n : Nine) (k : Nat) : Nine :=
  { n with bitbuf := n.bitbuf >>> k, bitcnt := n.bitcnt - BitVec.ofNat 6 k }

/-- The registers after `k` bytes are taken from the byte cache (R106). -/
def Nine.takeBytes (n : Nine) (k : Nat) : Nine :=
  { n with bytebuf := n.bytebuf >>> (8 * k), bytecnt := n.bytecnt - BitVec.ofNat 3 k }

theorem dropBit_nine (s : State) : (dropBit s).nine = s.nine.takeBits 1 := rfl

theorem dropByte_nine (s : State) : (dropByte s).nine = s.nine.takeBytes 1 := rfl

@[simp] theorem Nine.takeBits_zero (n : Nine) : n.takeBits 0 = n := by
  simp [Nine.takeBits]

@[simp] theorem Nine.takeBytes_zero (n : Nine) : n.takeBytes 0 = n := by
  simp [Nine.takeBytes]

theorem Nine.takeBits_takeBits_one (n : Nine) (k : Nat) : (n.takeBits k).takeBits 1 = n.takeBits (k + 1) := by
  simp only [Nine.takeBits, ← BitVec.shiftRight_add, BitVec.ofNat_add, BitVec.sub_sub]

theorem Nine.takeBytes_takeBytes_one (n : Nine) (k : Nat) : (n.takeBytes k).takeBytes 1 = n.takeBytes (k + 1) := by
  simp only [Nine.takeBytes, ← BitVec.shiftRight_add, BitVec.ofNat_add, BitVec.sub_sub, Nat.mul_add]

/-- Byte 0 of what is left after `k` bytes is byte `k` (R41). -/
theorem byteOf_ushiftRight (v : Word) (k : Nat) : byteOf (v >>> (8 * k)) 0 = byteOf v k := by
  apply BitVec.eq_of_getLsbD_eq
  intro i hi
  simp [byteOf, hi]

/-- An empty Boolean cache gives what the next word in the cache would give (R105). -/
theorem exec_nextBool_of_empty {s : State} (hs : s.seeded = true) (hcnt : s.bitcnt = 0) :
    exec .nextBool s = exec .nextBool ((s.withGen s.gen.step).withBitCache (s.gen.raw 0) 32) := by
  have hfull : ((s.withGen s.gen.step).withBitCache (s.gen.raw 0) 32).bitcnt ≠ 0 := by simp
  have hfilled := exec_nextBool (s := (s.withGen s.gen.step).withBitCache (s.gen.raw 0) 32) hs
  rw [hfilled, refillBits_of_not_empty hfull, exec_nextBool hs, refillBits_of_empty hcnt]

/-- An empty byte cache gives what the next word in the cache would give (R106). -/
theorem exec_nextByte_of_empty {s : State} (hs : s.seeded = true) (hcnt : s.bytecnt = 0) :
    exec .nextByte s = exec .nextByte ((s.withGen s.gen.step).withByteCache (s.gen.raw 0) 4) := by
  have hfull : ((s.withGen s.gen.step).withByteCache (s.gen.raw 0) 4).bytecnt ≠ 0 := by simp
  have hfilled := exec_nextByte (s := (s.withGen s.gen.step).withByteCache (s.gen.raw 0) 4) hs
  rw [hfilled, refillBytes_of_not_empty hfull, exec_nextByte hs, refillBytes_of_empty hcnt]

/-- `n` commands take the `n` low bits of a cache that holds as many. -/
theorem exists_execTrace_nextBool {n : Nat} {s : State} (hs : s.seeded = true) (hn : n ≤ s.bitcnt.toNat) :
    ∃ t, execTrace (List.replicate n .nextBool) s =
        some ((List.range n).map fun k => bitAnswer (s.bitbuf.getLsbD k), t) ∧ t.nine = s.nine.takeBits n := by
  refine execTrace_replicate (fun k hk t ht => ?_) s.nine.takeBits_zero.symm
  have hseed : t.seeded = true := (congrArg Nine.seeded ht).trans hs
  have hbuf : t.bitbuf = s.bitbuf >>> k := congrArg Nine.bitbuf ht
  have hcnt : t.bitcnt = s.bitcnt - BitVec.ofNat 6 k := congrArg Nine.bitcnt ht
  have hbit : t.bitbuf.getLsbD 0 = s.bitbuf.getLsbD k := by rw [hbuf, BitVec.getLsbD_ushiftRight, Nat.add_zero]
  have hnine : (dropBit t).nine = s.nine.takeBits (k + 1) := by rw [dropBit_nine, ht, Nine.takeBits_takeBits_one]
  rw [exec_nextBool hseed, refillBits_of_not_empty (by bv_omega), hbit]
  exact ⟨_, rfl, rfl, hnine⟩

/-- `n` commands take the `n` low bytes of a cache that holds as many. -/
theorem exists_execTrace_nextByte {n : Nat} {s : State} (hs : s.seeded = true) (hn : n ≤ s.bytecnt.toNat) :
    ∃ t, execTrace (List.replicate n .nextByte) s =
        some ((List.range n).map fun k => byteAnswer (byteOf s.bytebuf k), t) ∧ t.nine = s.nine.takeBytes n := by
  refine execTrace_replicate (fun k hk t ht => ?_) s.nine.takeBytes_zero.symm
  have hseed : t.seeded = true := (congrArg Nine.seeded ht).trans hs
  have hbuf : t.bytebuf = s.bytebuf >>> (8 * k) := congrArg Nine.bytebuf ht
  have hcnt : t.bytecnt = s.bytecnt - BitVec.ofNat 3 k := congrArg Nine.bytecnt ht
  have hbyte : byteOf t.bytebuf 0 = byteOf s.bytebuf k := by rw [hbuf, byteOf_ushiftRight]
  have hnine : (dropByte t).nine = s.nine.takeBytes (k + 1) := by rw [dropByte_nine, ht, Nine.takeBytes_takeBytes_one]
  rw [exec_nextByte hseed, refillBytes_of_not_empty (by bv_omega), hbyte]
  exact ⟨_, rfl, rfl, hnine⟩

/-- From an empty cache, four commands take one word byte by byte and leave the cache empty (R106). -/
theorem exists_execTrace_nextByte_word {s : State} (hs : s.seeded = true) (hcnt : s.bytecnt = 0) :
    ∃ t, execTrace (List.replicate 4 .nextByte) s = some ((wordBytes (s.gen.raw 0)).map byteAnswer, t) ∧
      t.nine = { s.nine with gen := s.gen.step, bytebuf := 0, bytecnt := 0 } := by
  obtain ⟨t, htrace, ht⟩ := exists_execTrace_nextByte (n := 4)
    (s := (s.withGen s.gen.step).withByteCache (s.gen.raw 0) 4) hs (Nat.le_refl _)
  rw [List.replicate_succ, ← execTrace_cons_congr _ (exec_nextByte_of_empty hs hcnt)] at htrace
  have hdrained : s.gen.raw 0 >>> 32 = 0#32 := BitVec.ushiftRight_eq_zero (by decide)
  exact ⟨t, htrace, ht.trans (by simp [Nine.takeBytes, State.nine, hdrained])⟩

/-- From an empty cache, `4k` commands take `k` words byte by byte, as `NEXT_BYTES 4k` emits them (R107). -/
theorem exists_execTrace_nextByte_words (k : Nat) {s : State} (hs : s.seeded = true) (hcnt : s.bytecnt = 0)
    (hbuf : s.bytebuf = 0) :
    ∃ t, execTrace (List.replicate (4 * k) .nextByte) s = some ((streamBytes (4 * k) s.gen).map byteAnswer, t) ∧
      t.nine = { s.nine with gen := s.gen.advance k } := by
  induction k generalizing s with
  | zero => exact ⟨s, rfl, rfl⟩
  | succ k ih =>
    obtain ⟨t, hword, ht⟩ := exists_execTrace_nextByte_word hs hcnt
    have hgen : t.gen = s.gen.step := congrArg Nine.gen ht
    obtain ⟨u, hwords, hu⟩ := ih (s := t) ((congrArg Nine.seeded ht).trans hs) (congrArg Nine.bytecnt ht)
      (congrArg Nine.bytebuf ht)
    have htrace := execTrace_append hword hwords
    rw [hgen, ← List.map_append, ← streamBytes_four_mul_succ, ← List.replicate_add, Nat.add_comm 4] at htrace
    refine ⟨u, htrace, hu.trans ?_⟩
    rw [ht, hgen, ← hbuf, ← hcnt]
    rfl

/-! ## The obligations -/

/-- Settles O32: word after word, four commands give the bytes that `NEXT_BYTES` emits of it. -/
theorem nextBytesEqualsNextByteRepeated : Obligations.NextBytesEqualsNextByteRepeated := by
  intro k s hs hcnt hbuf _
  obtain ⟨t, htrace, ht⟩ := exists_execTrace_nextByte_words k hs hcnt hbuf
  have hwords : (4 * k + 3) / 4 = k := by omega
  exact ⟨_, t, _, _, htrace, exec_nextBytes (4 * k) hs, rfl, rfl, by rw [ht, hwords]; rfl⟩

/-- Settles O26, from the bounded draw of width `upper`. -/
theorem nextUAnswersTheFirstAcceptedWordModuloUpper : Obligations.NextUAnswersTheFirstAcceptedWordModuloUpper := by
  refine ⟨fun a b => ?_, fun upper => refusedUnseeded_of_draws rfl,
    fun upper s hs hu => exec_of_badRange (i := .nextU upper) hs hu, fun upper s hs hu hmax => ?_⟩
  · rw [← signed32_eq_toInt]
    exact decode_commandWord (.nextU 0) a b
  · obtain ⟨k, hf, hdraw⟩ := exists_firstBelow_drawBounded (n := upper.toNat) (by omega) (by omega) s
    have hv : (s.gen.raw k).toNat % upper.toNat < upper.toNat := Nat.mod_lt _ (by omega)
    exact ⟨k, hf, by rw [exec_nextU hs hu, hdraw]; rfl, by omega⟩

/-- Settles O27, from the bounded draw of width `upper - lower`: the sum is an Int32, which its pattern gives back. -/
theorem nextLUAnswersLowerPlusTheFirstAcceptedWordModuloTheWidth :
    Obligations.NextLUAnswersLowerPlusTheFirstAcceptedWordModuloTheWidth := by
  refine ⟨fun a b => ?_, fun lower upper => refusedUnseeded_of_draws rfl,
    fun lower upper s hs hu => exec_of_badRange (i := .nextLU lower upper) hs hu,
    fun upper s h => exec_nextLU_zero h s, fun lower upper s hs hmin hlt hmax => ?_⟩
  · rw [← signed32_eq_toInt, ← signed32_eq_toInt]
    exact decode_commandWord (.nextLU 0 0) a b
  · obtain ⟨k, hf, hdraw⟩ := exists_firstBelow_drawBounded (n := rangeWidth lower upper)
      (by rw [rangeWidth]; omega) (by rw [rangeWidth]; omega) s
    have hv : (s.gen.raw k).toNat % (upper - lower).toNat < (upper - lower).toNat := Nat.mod_lt _ (by omega)
    refine ⟨k, _, int32Data (lower + ((s.gen.raw k).toNat % (upper - lower).toNat : Nat)), hf, rfl, by omega,
      by omega, int32Data_high _, int32Data_low ((isInt32_iff _).mpr (by omega)), ?_⟩
    rw [exec_nextLU hs hlt, hdraw]
    rfl

/-- Settles O29: the first command refills the cache, whose 32 bits are then taken one by one. -/
theorem oneWordServesThirtyTwoBooleans : Obligations.OneWordServesThirtyTwoBooleans := by
  intro s hs hcnt
  obtain ⟨t, htrace, ht⟩ := exists_execTrace_nextBool (n := 32)
    (s := (s.withGen s.gen.step).withBitCache (s.gen.raw 0) 32) hs (Nat.le_refl _)
  rw [List.replicate_succ, ← execTrace_cons_congr _ (exec_nextBool_of_empty hs hcnt)] at htrace
  have hdrained : s.gen.raw 0 >>> 32 = 0#32 := BitVec.ushiftRight_eq_zero (by decide)
  exact ⟨t, htrace, ht.trans (by simp [Nine.takeBits, State.nine, hdrained])⟩

/-- Settles O31: the stream of whole words and a tail, read byte by byte. -/
theorem nextBytesEmitsTheWordsInOrder : Obligations.NextBytesEmitsTheWordsInOrder :=
  ⟨fun a b => decode_commandWord (.nextBytes 0) a b, fun _ => refusedUnseeded_of_draws rfl, fun len s hs _ =>
    ⟨streamBytes len s.gen, streamBytes_length len s.gen, streamBytes_getElem len s.gen, exec_nextBytes len hs⟩⟩

/-- Settles O24: both commands answer the word with its sign bit masked out. -/
theorem nextAndNextIntMaskTheSign : Obligations.NextAndNextIntMaskTheSign := by
  refine ⟨decode_commandWord .next, decode_commandWord .nextInt, refusedUnseeded_of_draws rfl,
    refusedUnseeded_of_draws rfl, fun i s hi hs => ?_⟩
  rw [← zextWord_maskSign_eq]
  obtain rfl | rfl := hi <;> exact ifSeeded_of_seeded hs _

/-- Settles O25: the word is placed as it is drawn. -/
theorem nextUintIsTheRawWord : Obligations.NextUintIsTheRawWord := by
  refine ⟨decode_commandWord .nextUint, refusedUnseeded_of_draws rfl, fun s hs => ?_⟩
  rw [← zextWord_eq]
  exact ifSeeded_of_seeded hs _

/-- Settles O28: an empty cache is refilled first, another one gives its low bit as it is. -/
theorem nextBoolTakesOneBit : Obligations.NextBoolTakesOneBit := by
  refine ⟨decode_commandWord .nextBool, refusedUnseeded_of_draws rfl, fun s hs => ⟨fun hc => ?_, fun hc => ?_⟩⟩
  · have hleft : (31 : BitVec 6) = 32 - 1 := by decide
    rw [exec_nextBool hs, refillBits_of_empty hc, zextBit_eq, hleft]
    rfl
  · rw [exec_nextBool hs, refillBits_of_not_empty hc, zextBit_eq]
    rfl

/-- Settles O30: an empty cache is refilled first, another one gives its low byte as it is. -/
theorem nextByteTakesOneByte : Obligations.NextByteTakesOneByte := by
  refine ⟨decode_commandWord .nextByte, refusedUnseeded_of_draws rfl, fun s hs => ⟨fun hc => ?_, fun hc => ?_⟩⟩
  · have hleft : (3 : BitVec 3) = 4 - 1 := by decide
    rw [exec_nextByte hs, refillBytes_of_empty hc, zextByte_byteOf_zero_eq, hleft]
    rfl
  · rw [exec_nextByte hs, refillBytes_of_not_empty hc, zextByte_byteOf_zero_eq]
    rfl

end Sys2Proof.Machine
end

section
/-!
PROOFS. The statements about the floating-point commands (44_range_adapter_float.md). `F64` and `F32` are one
construction at two formats: a sign 0, the exponent field `b + k` for `m` with its leading 1 at bit `k`, and the fraction
field that `m`, shifted until its leading 1 is at bit `p`, leaves below that bit. What R120 and R124 claim of them is
proved once, for every format with `n` exponent bits and `p` fraction bits in which the largest exponent fits.
-/

namespace Sys2Proof.Machine

/-! ## The normalised significand -/

/-- `m` shifted until its leading 1 is at bit `p`. -/
def significand (p m : Nat) : Nat := m * 2 ^ (p - msbIndex m)

theorem msbIndex_le {p m : Nat} (h0 : m ≠ 0) (hm : m < 2 ^ (p + 1)) : msbIndex m ≤ p :=
  Nat.lt_succ_iff.mp ((Nat.log2_lt h0).mpr hm)

theorem msbIndex_le_msbIndex {m m' : Nat} (h : m ≤ m') : msbIndex m ≤ msbIndex m' := by
  simpa only [msbIndex, Nat.log2_eq_log_two] using Nat.log_mono_right h

/-- The shift is undone by the exponent. -/
theorem significand_mul_two_pow {p m : Nat} (h0 : m ≠ 0) (hm : m < 2 ^ (p + 1)) :
    significand p m * 2 ^ msbIndex m = m * 2 ^ p := by
  rw [significand, Nat.mul_assoc, ← Nat.pow_add, Nat.sub_add_cancel (msbIndex_le h0 hm)]

theorem two_pow_le_significand {p m : Nat} (h0 : m ≠ 0) (hm : m < 2 ^ (p + 1)) : 2 ^ p ≤ significand p m :=
  calc 2 ^ p = 2 ^ msbIndex m * 2 ^ (p - msbIndex m) := by rw [← Nat.pow_add, Nat.add_sub_cancel' (msbIndex_le h0 hm)]
    _ ≤ significand p m := Nat.mul_le_mul_right _ (Nat.log2_self_le h0)

theorem significand_lt {p m : Nat} (h0 : m ≠ 0) (hm : m < 2 ^ (p + 1)) : significand p m < 2 ^ (p + 1) :=
  calc significand p m < 2 ^ (msbIndex m + 1) * 2 ^ (p - msbIndex m) :=
        Nat.mul_lt_mul_of_pos_right Nat.lt_log2_self (Nat.two_pow_pos _)
    _ = 2 ^ (p + 1) := by
        have hk := msbIndex_le h0 hm
        rw [← Nat.pow_add]
        congr 1
        omega

/-- The fraction field is the significand without its leading 1. -/
theorem two_pow_add_significand_mod {p m : Nat} (h0 : m ≠ 0) (hm : m < 2 ^ (p + 1)) :
    2 ^ p + significand p m % 2 ^ p = significand p m := by
  have hlow := two_pow_le_significand h0 hm
  have hhigh := significand_lt h0 hm
  rw [Nat.mod_eq_sub_mod hlow, Nat.mod_eq_of_lt (by omega)]
  omega

/-- At equal exponents the larger number has the larger significand. -/
theorem significand_lt_significand {p m m' : Nat} (h : m < m') (hk : msbIndex m = msbIndex m') :
    significand p m < significand p m' := by
  rw [significand, significand, hk]
  exact Nat.mul_lt_mul_of_pos_right h (Nat.two_pow_pos _)

/-! ## The pattern of a fraction -/

/-- The pattern of `m / 2^(p + 1)` in a format with `n` exponent bits and `p` fraction bits, where `b` is the exponent
field of the least such fraction, `1 / 2^(p + 1)`. -/
def fractionPattern (n p b m : Nat) : BitVec (1 + n + p) :=
  if m = 0 then 0 else 0#1 ++ BitVec.ofNat n (b + msbIndex m) ++ BitVec.ofNat p (significand p m)

/-- Shifting a word, masking it and cutting out its `p` low bits is the product's residue. -/
theorem extractLsb'_shiftLeft_and_mask (w p m j : Nat) (hp : p ≤ w) :
    ((BitVec.ofNat w m <<< j) &&& BitVec.ofNat w (2 ^ p - 1)).extractLsb' 0 p = BitVec.ofNat p (m * 2 ^ j) := by
  apply BitVec.eq_of_getLsbD_eq
  intro i hi
  have hw : i < w := hi.trans_le hp
  simp only [BitVec.getLsbD_extractLsb', BitVec.getLsbD_and, BitVec.getLsbD_shiftLeft, BitVec.getLsbD_ofNat,
    Nat.zero_add, Nat.testBit_two_pow_sub_one, Nat.testBit_mul_two_pow, hi, hw, Nat.sub_lt_of_lt hw]
  by_cases hj : j ≤ i <;> simp [hj]

/-- `F64` is the pattern with 11 exponent bits and 52 fraction bits (R120). -/
theorem f64_eq_fractionPattern : f64 = fractionPattern 11 52 970 := by
  funext m
  simp only [f64, fractionPattern, significand, ← extractLsb'_shiftLeft_and_mask 64 52 m _ (by decide)]
  rfl

/-- `F32` is the pattern with 8 exponent bits and 23 fraction bits (R124). -/
theorem f32_eq_fractionPattern : f32 = fractionPattern 8 23 103 := by
  funext m
  simp only [f32, fractionPattern, significand, ← extractLsb'_shiftLeft_and_mask 32 23 m _ (by decide)]
  rfl

section
variable {n p b m : Nat} (hb : b + p < 2 ^ n)

theorem fractionPattern_of_ne_zero (h0 : m ≠ 0) :
    fractionPattern n p b m = 0#1 ++ BitVec.ofNat n (b + msbIndex m) ++ BitVec.ofNat p (significand p m) :=
  if_neg h0

theorem fractionPattern_sign : (fractionPattern n p b m).getLsbD (n + p) = false := by
  unfold fractionPattern
  split
  · exact BitVec.getLsbD_zero
  · simp [BitVec.getElem_append]

theorem fractionPattern_fraction (h0 : m ≠ 0) (hm : m < 2 ^ (p + 1)) :
    2 ^ p + ((fractionPattern n p b m).extractLsb' 0 p).toNat = significand p m := by
  rw [fractionPattern_of_ne_zero h0, BitVec.extractLsb'_append_eq_right, BitVec.toNat_ofNat,
    two_pow_add_significand_mod h0 hm]

include hb

/-- The exponent field does not overflow. -/
theorem ofNat_exponent_toNat (h0 : m ≠ 0) (hm : m < 2 ^ (p + 1)) :
    (BitVec.ofNat n (b + msbIndex m)).toNat = b + msbIndex m := by
  have hk := msbIndex_le h0 hm
  rw [BitVec.toNat_ofNat, Nat.mod_eq_of_lt (by omega)]

theorem fractionPattern_toNat (h0 : m ≠ 0) (hm : m < 2 ^ (p + 1)) :
    2 ^ p + (fractionPattern n p b m).toNat = (b + msbIndex m) * 2 ^ p + significand p m := by
  have hf := two_pow_add_significand_mod h0 hm
  have htop : (0#1 ++ BitVec.ofNat n (b + msbIndex m)).toNat = b + msbIndex m := by
    rw [BitVec.toNat_append, ofNat_exponent_toNat hb h0 hm, BitVec.toNat_zero, Nat.zero_shiftLeft, Nat.zero_or]
  rw [fractionPattern_of_ne_zero h0, BitVec.toNat_append, ← Nat.shiftLeft_add_eq_or_of_lt (BitVec.isLt _), htop,
    BitVec.toNat_ofNat, Nat.shiftLeft_eq]
  omega

theorem fractionPattern_exponent (h0 : m ≠ 0) (hm : m < 2 ^ (p + 1)) :
    ((fractionPattern n p b m).extractLsb' p n).toNat = b + msbIndex m := by
  have hfield : (fractionPattern n p b m).extractLsb' p n = BitVec.ofNat n (b + msbIndex m) := by
    rw [fractionPattern_of_ne_zero h0]
    apply BitVec.eq_of_getLsbD_eq
    intro i hi
    simp [BitVec.getLsbD_append, hi]
  rw [hfield, ofNat_exponent_toNat hb h0 hm]

/-- The value is exact: the exponent field puts the significand back where `m` is. (`top` names the largest exponent
field, so that `2 ^ top` is not evaluated where a format's numeral stands for it.) -/
theorem fractionPattern_exact {top : Nat} (htop : b + p = top) (h0 : m ≠ 0) (hm : m < 2 ^ (p + 1)) :
    (fractionPattern n p b m).getLsbD (n + p) = false ∧
    b ≤ ((fractionPattern n p b m).extractLsb' p n).toNat ∧
    ((fractionPattern n p b m).extractLsb' p n).toNat ≤ top ∧
    (2 ^ p + ((fractionPattern n p b m).extractLsb' 0 p).toNat) *
      2 ^ ((fractionPattern n p b m).extractLsb' p n).toNat = m * 2 ^ top := by
  subst htop
  rw [fractionPattern_exponent hb h0 hm, fractionPattern_fraction h0 hm]
  refine ⟨fractionPattern_sign, Nat.le_add_right _ _, Nat.add_le_add_left (msbIndex_le h0 hm) b, ?_⟩
  rw [Nat.pow_add, Nat.mul_left_comm, significand_mul_two_pow h0 hm, Nat.mul_left_comm, ← Nat.pow_add]

/-- The pattern of a fraction is positive, and of two of them the larger number has the larger exponent, or the same
exponent and the larger significand. -/
theorem fractionPattern_toNat_lt {m' : Nat} (hpos : 0 < b) (h : m < m') (hm' : m' < 2 ^ (p + 1)) :
    (fractionPattern n p b m).toNat < (fractionPattern n p b m').toNat := by
  have h0' : m' ≠ 0 := Nat.ne_zero_of_lt h
  have hval' := fractionPattern_toNat hb h0' hm'
  have hlow' := two_pow_le_significand h0' hm'
  rcases Nat.eq_zero_or_pos m with rfl | hmpos
  · have hexp : 0 < (b + msbIndex m') * 2 ^ p := Nat.mul_pos (Nat.add_pos_left hpos _) (Nat.two_pow_pos p)
    have hzero : (fractionPattern n p b 0).toNat = 0 := BitVec.toNat_zero
    omega
  · have h0 : m ≠ 0 := Nat.ne_of_gt hmpos
    have hm : m < 2 ^ (p + 1) := h.trans hm'
    have hval := fractionPattern_toNat hb h0 hm
    rcases (msbIndex_le_msbIndex h.le).eq_or_lt with hk | hk
    · have hsig := significand_lt_significand (p := p) h hk
      rw [hk] at hval
      omega
    · have hhigh := significand_lt h0 hm
      have hexp : (b + msbIndex m + 1) * 2 ^ p ≤ (b + msbIndex m') * 2 ^ p := Nat.mul_le_mul_right _ (by omega)
      rw [Nat.succ_mul] at hexp
      rw [Nat.pow_succ] at hhigh
      omega

end

/-! ## The obligations about the floating-point commands -/

/-- Settles O33: binary64 is the format with 11 exponent bits and 52 fraction bits, and `970 + 52 = 1022`. -/
theorem f64IsExact : Obligations.F64IsExact := by
  unfold Obligations.F64IsExact
  rw [f64_eq_fractionPattern]
  exact ⟨rfl, fun m h1 hm => fractionPattern_exact (by decide) rfl (Nat.ne_of_gt h1) hm, fun m m' h hm' =>
    fractionPattern_toNat_lt (by decide) (by decide) h hm'⟩

/-- Settles O34: binary32 is the format with 8 exponent bits and 23 fraction bits, and `103 + 23 = 126`. -/
theorem f32IsExact : Obligations.F32IsExact := by
  unfold Obligations.F32IsExact
  rw [f32_eq_fractionPattern]
  exact ⟨rfl, fun m h1 hm => fractionPattern_exact (by decide) rfl (Nat.ne_of_gt h1) hm, fun m m' h hm' =>
    fractionPattern_toNat_lt (by decide) (by decide) h hm'⟩

/-- Settles O35: the two words drawn are joined as R121 says, and the join is below `2^53`. -/
theorem nextDoubleJoinsTwoWords : Obligations.NextDoubleJoinsTwoWords := by
  refine ⟨decode_commandWord .nextDouble, refusedUnseeded_of_draws rfl, fun s hs => ?_⟩
  rw [← join53_eq]
  exact ⟨join53_lt _ _, ifSeeded_of_seeded hs _⟩

/-- Settles O37: the 24 high bits of the word drawn, and the pattern placed with zeros above. -/
theorem nextFloatUsesTheHighBits : Obligations.NextFloatUsesTheHighBits := by
  refine ⟨decode_commandWord .nextFloat, refusedUnseeded_of_draws rfl, fun s hs => ?_⟩
  rw [← high24_eq, ← zextWord_eq]
  exact ⟨high24_lt _, ifSeeded_of_seeded hs _⟩

end Sys2Proof.Machine
end

section
/-!
PROOFS. The statements about the errors (60_exceptions.md). `Checked` sorts the answers of a command by the checks of R134
that come after decoding: refused as not seeded, refused for its range, or passed. A reserved opcode fails the check before
these, at decoding.
-/

namespace Sys2Proof.Machine

/-! ## The checks of R134 -/

/-- What the checks after decoding make of a command, in the order of R134. -/
inductive Checked (i : Instr) (s : State) : State → Prop
  | notSeeded (hd : draws i = true) (hs : s.seeded = false) : Checked i s (s.withResponse ⟨.errNotSeeded, 0, []⟩)
  | invalidRange (hs : s.seeded = true) (hb : badRange i) : Checked i s (s.withResponse ⟨.errInvalidRange, 0, []⟩)
  | passed {u : State} {d : DWord} {bs : List Byte} (hs : draws i = true → s.seeded = true) (hb : ¬ badRange i) :
    Checked i s (u.withResponse ⟨.ok, d, bs⟩)

/-- A command that is answered `OK` has passed every check. -/
theorem Answer.checked {i : Instr} {s t : State} (h : Answer i s t) : Checked i s t := by
  cases h with
  | notSeeded hd hs => exact .notSeeded hd hs
  | badRange hs hb => exact .invalidRange hs hb
  | seed | seedDefault => exact .passed (absurd · Bool.false_ne_true) not_false
  | nextU hs hu | nextLU hs hu => exact .passed (fun _ => hs) (Int.not_le.mpr hu)
  | next hs | nextUint hs | nextInt hs | nextDouble hs | nextDoubleNZ hs | nextFloat hs | nextBool hs | nextByte hs
  | nextBytes hs => exact .passed (fun _ => hs) not_false

/-- The status of a decoded command is that of the first check it fails (R134). -/
theorem Checked.status {i : Instr} {s t : State} (h : Checked i s t) :
    ∃ r, t.rsp = some r ∧
      (draws i = true ∧ s.seeded = false → r.status = .errNotSeeded) ∧
      (¬(draws i = true ∧ s.seeded = false) → badRange i → r.status = .errInvalidRange) ∧
      (¬(draws i = true ∧ s.seeded = false) → ¬badRange i → r.status = .ok) := by
  cases h with
  | notSeeded hd hs => exact ⟨_, rfl, fun _ => rfl, fun h => absurd ⟨hd, hs⟩ h, fun h => absurd ⟨hd, hs⟩ h⟩
  | invalidRange hs hb => exact ⟨_, rfl, fun h => by simp [hs] at h, fun _ _ => rfl, fun _ h => absurd hb h⟩
  | passed hs hb => exact ⟨_, rfl, fun ⟨hd, h⟩ => by simp [hs hd] at h, fun _ h => absurd h hb, fun _ _ => rfl⟩

/-! ## Reserved opcodes -/

/-- The 243 reserved opcodes of R56. -/
def ReservedOpcode (op : Byte) : Prop := op.toNat = 0 ∨ (3 ≤ op.toNat ∧ op.toNat ≤ 15) ∨ 27 ≤ op.toNat

theorem not_reservedOpcode_opcode (i : Instr) : ¬ ReservedOpcode (opcode i) := by
  cases i <;> simp [ReservedOpcode, opcode]

theorem reservedOpcode_of_decode_error {c : CmdWord} {e : DecodeError} (h : decode c = .error e) :
    ReservedOpcode (opField c) := by
  unfold decode at h
  unfold ReservedOpcode
  generalize (opField c).toNat = n at h ⊢
  split at h <;> cases h
  simp only [imp_false] at *
  omega

/-- A word is no command exactly if its opcode is reserved (R53, R56). -/
theorem decode_ne_ok_iff (c : CmdWord) : (∀ i, decode c ≠ .ok i) ↔ ReservedOpcode (opField c) := by
  constructor
  · intro hno
    cases h : decode c with
    | ok i => exact absurd h (hno i)
    | error e => exact reservedOpcode_of_decode_error h
  · intro hres i h
    rw [opField_of_decode h] at hres
    exact not_reservedOpcode_opcode i hres

/-- A word that is no command is answered `IllegalCmd` in every state (R133). -/
theorem accept_of_decode_ne_ok {c : CmdWord} (h : ∀ i, decode c ≠ .ok i) (s : State) :
    accept c s = raise .illegalCmd s := by
  rw [accept]
  cases hd : decode c with
  | ok i => exact absurd hd (h i)
  | error e => rfl

/-! ## The range check on the operand field -/

/-- `upper <= 0` on a field read as two's complement: it is 0 or its top bit is 1 (R131). -/
theorem toInt_nonpos_iff (a : Word) : a.toInt ≤ 0 ↔ a = 0 ∨ a.getLsbD 31 = true := by
  have hzero : a.toInt = 0 ↔ a = 0 := by rw [← BitVec.toInt_inj]; rfl
  have hneg : a.toInt < 0 ↔ a.getLsbD 31 = true := by
    rw [← decide_eq_true_iff (p := a.toInt < 0), ← BitVec.msb_eq_toInt]; rfl
  rw [← hzero, ← hneg]
  omega

/-! ## The obligations -/

/-- Settles O38: the word is answered, since the redraws end where R21 holds, and the answer is sorted by the first check
that fails, decoding before the two others. -/
theorem everyWordIsAnsweredWithItsStatus : Obligations.EveryWordIsAnsweredWithItsStatus := by
  intro c s hs
  obtain ⟨t, ht⟩ := exists_accept_next c hs
  obtain ⟨i, hi, hans⟩ | ⟨hno, rfl⟩ := accept_cases ht
  · obtain ⟨r, hr, hstatus⟩ := hans.checked.status
    refine ⟨t, r, ht, hr, fun hno => absurd hi (hno i), fun j hj => ?_⟩
    obtain rfl : i = j := Except.ok.inj (hi.symm.trans hj)
    exact hstatus
  · exact ⟨_, _, ht, rfl, fun _ => rfl, fun i hi => absurd hi (hno i)⟩

/-- Settles O5: the thirteen opcodes of R55 are the ones that are not reserved, and accepting a word with another one
raises `IllegalCmd`. -/
theorem reservedOpcodesAreIllegal : Obligations.ReservedOpcodesAreIllegal := by
  intro op a b
  refine ⟨?_, fun hno s e rest ha he => ?_⟩
  · rw [decode_ne_ok_iff, opField_commandWord, ReservedOpcode]
  · rw [step_of_accepts ha, he, accept_of_decode_ne_ok hno]
    rfl

/-- Settles O23: the range check raises `InvalidRange` before any draw, and the operands it compares are the fields read
as two's complement. -/
theorem emptyRangesAreRefused : Obligations.EmptyRangesAreRefused := by
  refine ⟨fun i s hi hs => exec_of_badRange hs hi, fun a b => ⟨?_, ?_, toInt_nonpos_iff a⟩⟩
  · rw [← signed32_eq_toInt]
    exact decode_commandWord (.nextU 0) a b
  · rw [← signed32_eq_toInt, ← signed32_eq_toInt]
    exact decode_commandWord (.nextLU 0 0) a b

/-- Settles O39: a reserved opcode and the two failed checks write the response only, and what passes is answered `OK`. -/
theorem errorsChangeNothing : Obligations.ErrorsChangeNothing := by
  intro c s t r h hr herr
  obtain ⟨i, -, hans⟩ | ⟨-, rfl⟩ := accept_cases h
  · cases hans.checked with
    | notSeeded | invalidRange => cases hr; rfl
    | passed => cases hr; exact absurd rfl herr
  · cases hr; rfl

/-- Settles O22: every drawing command begins with the check of `seeded`. -/
theorem drawBeforeSeedingIsRefused : Obligations.DrawBeforeSeedingIsRefused :=
  fun _ s hd hs => refusedUnseeded_of_draws hd s hs

end Sys2Proof.Machine
end

section
/-!
PROOFS. The statements about reset and the response port (70_reset_and_hazards.md). `step_of_reset` says what a reset edge
does whatever the block was doing; `step_busy_cases` says the two things an edge outside reset can do while a response is
outstanding.
-/

namespace Sys2Proof.Machine

/-! ## Edges in reset and at a busy block -/

/-- A reset edge samples the inputs of the edge in the state the reset event makes (R150). -/
theorem step_of_reset {s : State} {e : Edge} {rest : List Edge} (he : s.edges = e :: rest) (hrst : e.rst = true) :
    step s = .next (sampleInputs e e.presented (resetEvent { s with edges := rest })) := by
  rw [step_of_edge he, onEdge, if_pos hrst]

/-- While a response is outstanding, an edge outside reset delivers its next beat or holds it, by `rsp_ready` (R159). -/
theorem step_busy_cases {s t : State} {r : Response} {e : Edge} {rest : List Edge} (hr : s.rsp = some r)
    (he : s.edges = e :: rest) (hrst : e.rst = false) (h : step s = .next t) :
    (e.rspReady = true ∧ t = deliver (sampleInputs e e.presented { s with edges := rest })) ∨
    (e.rspReady = false ∧ t = sampleInputs e e.presented { s with edges := rest }) := by
  have hbusy : s.rsp ≠ none := by simp [hr]
  obtain ⟨hnil, -⟩ | ⟨e', rest', he', hstep⟩ := step_cases h
  · exact absurd (he.symm.trans hnil) (List.cons_ne_nil _ _)
  obtain ⟨rfl, rfl⟩ := List.cons.inj (he.symm.trans he')
  obtain ⟨hreset, -⟩ | ⟨⟨-, -, -, hidle, -⟩, -⟩ | ⟨-, -, hidle, -⟩ | ⟨-, -, -, htake⟩ | ⟨-, -, -, hhold⟩ := hstep
  · exact absurd hreset (by simp [hrst])
  · exact absurd hidle hbusy
  · exact absurd hidle hbusy
  · exact .inl htake
  · exact .inr hhold

/-! ## The obligations -/

/-- Settles O48, by the two things an edge can do at a busy block: neither touches the nine registers. -/
theorem busyBlockAcceptsNothing : Obligations.BusyBlockAcceptsNothing := by
  intro s t r e rest hr he hrst h
  refine ⟨by simp [cmdReady, hr], ?_⟩
  obtain ⟨hready, rfl⟩ | ⟨hready, rfl⟩ := step_busy_cases hr he hrst h
  · refine ⟨deliver_nine _, by simp [hready], fun _ => ?_⟩
    rw [deliver_of_rsp (s := sampleInputs e e.presented { s with edges := rest }) hr]
    exact ⟨rfl, rfl⟩
  · exact ⟨rfl, fun _ => ⟨hr, rfl⟩, by simp [hready]⟩

/-- Settles O49: `rst` masks both handshakes, and the reset event clears what R33 names and leaves no response. -/
theorem resetWinsOverEverything : Obligations.ResetWinsOverEverything := by
  intro s e rest he hrst
  exact ⟨by simp [cmdReady, hrst], by simp [rspBeat, hrst], _, step_of_reset he hrst,
    rfl, rfl, rfl, rfl, rfl, rfl, rfl, rfl, rfl, rfl⟩

end Sys2Proof.Machine
end

section
/-!
PROOFS. The redraws of the bounded draw (R90) and of `NEXT_DOUBLE_NZ` (R123) end, and with what; the assembler (R60)
writes no command that it has not checked; and what the host may not do at an edge (R152, U7), with the two fields of the
model that remember it, `resets` and `held`.
-/

namespace Sys2Proof.Asm

/-! ## The assembler writes checked commands only -/

/-- The command of a line, if the line is accepted and is a command, has its operands in range. -/
def ChecksCommand (line : Option Line) : Prop := ∀ i, line = some (.command i) → i.wellFormed = true

theorem checksCommand_none : ChecksCommand none := nofun

theorem checksCommand_checked (j : Instr) : ChecksCommand (checked j) := by
  intro i h
  obtain ⟨hj, hline⟩ := Option.ite_none_right_eq_some.mp h
  obtain rfl : j = i := Line.command.inj (Option.some.inj hline)
  exact hj

theorem checksCommand_bind {α : Type} (o : Option α) {f : α → Option Line} (hf : ∀ a, ChecksCommand (f a)) :
    ChecksCommand (o.bind f) := by
  intro i h
  obtain ⟨a, -, ha⟩ := Option.bind_eq_some_iff.mp h
  exact hf a i ha

/-- A directive is no command. -/
theorem checksCommand_map {α : Type} (o : Option α) {f : α → Line} (hf : ∀ a i, f a ≠ .command i) :
    ChecksCommand (o.map f) := by
  intro i h
  obtain ⟨a, -, ha⟩ := Option.map_eq_some_iff.mp h
  exact absurd ha (hf a i)

theorem checksCommand_ite {p : Prop} [Decidable p] {a b : Option Line} (ha : ChecksCommand a) (hb : ChecksCommand b) :
    ChecksCommand (if p then a else b) := by
  split
  · exact ha
  · exact hb

theorem checksCommand_bare (j : Instr) : ∀ ops, ChecksCommand (bare j ops)
  | [] => checksCommand_checked j
  | _ :: _ => checksCommand_none

theorem checksCommand_parseSeed : ∀ ops, ChecksCommand (parseSeed ops)
  | [_] => checksCommand_bind _ fun _ => checksCommand_checked _
  | [] | _ :: _ :: _ => checksCommand_none

theorem checksCommand_parseSeed32 : ∀ ops, ChecksCommand (parseSeed32 ops)
  | [_] => checksCommand_bind _ fun _ => checksCommand_checked _
  | [] | _ :: _ :: _ => checksCommand_none

theorem checksCommand_parseNextU : ∀ ops, ChecksCommand (parseNextU ops)
  | [_] => checksCommand_bind _ fun _ => checksCommand_checked _
  | [] | _ :: _ :: _ => checksCommand_none

theorem checksCommand_parseNextLU : ∀ ops, ChecksCommand (parseNextLU ops)
  | [_, _] => checksCommand_bind _ fun _ => checksCommand_bind _ fun _ => checksCommand_checked _
  | [] | [_] | _ :: _ :: _ :: _ => checksCommand_none

theorem checksCommand_parseNextBytes : ∀ ops, ChecksCommand (parseNextBytes ops)
  | [_] => checksCommand_bind _ fun _ => checksCommand_checked _
  | [] | _ :: _ :: _ => checksCommand_none

theorem checksCommand_parseReset : ∀ ops, ChecksCommand (parseReset ops)
  | [] => nofun
  | _ :: _ => checksCommand_none

theorem checksCommand_parseEntropy : ∀ ops, ChecksCommand (parseEntropy ops)
  | [_] => checksCommand_map _ nofun
  | [] | _ :: _ :: _ => checksCommand_none

theorem checksCommand_parseRaw : ∀ ops, ChecksCommand (parseRaw ops)
  | [_] => checksCommand_map _ nofun
  | [] | _ :: _ :: _ => checksCommand_none

/-- Row by row of the mnemonics of R60 and R61. -/
theorem checksCommand_parseStatement (mnemonic : List Char) (ops : List (List Char)) :
    ChecksCommand (parseStatement mnemonic ops) :=
  checksCommand_ite (checksCommand_parseSeed ops) <|
  checksCommand_ite (checksCommand_parseSeed32 ops) <|
  checksCommand_ite (checksCommand_bare .seedDefault ops) <|
  checksCommand_ite (checksCommand_bare .next ops) <|
  checksCommand_ite (checksCommand_parseNextU ops) <|
  checksCommand_ite (checksCommand_parseNextLU ops) <|
  checksCommand_ite (checksCommand_bare .nextUint ops) <|
  checksCommand_ite (checksCommand_bare .nextInt ops) <|
  checksCommand_ite (checksCommand_bare .nextDouble ops) <|
  checksCommand_ite (checksCommand_bare .nextDoubleNZ ops) <|
  checksCommand_ite (checksCommand_bare .nextFloat ops) <|
  checksCommand_ite (checksCommand_bare .nextBool ops) <|
  checksCommand_ite (checksCommand_bare .nextByte ops) <|
  checksCommand_ite (checksCommand_parseNextBytes ops) <|
  checksCommand_ite (checksCommand_parseReset ops) <|
  checksCommand_ite (checksCommand_parseEntropy ops) <|
  checksCommand_ite (checksCommand_parseRaw ops) checksCommand_none

/-- What a line of text assembles to is one statement. -/
theorem exists_parseStatement_of_parseLine {text : List Char} {line : Line} (h : parseLine text = some [line]) :
    ∃ mnemonic ops, parseStatement mnemonic ops = some line := by
  unfold parseLine at h
  split at h
  · exact absurd (Option.some.inj h) (List.cons_ne_nil _ _).symm
  · obtain ⟨line', hstmt, hline⟩ := Option.map_eq_some_iff.mp h
    obtain rfl : line' = line := List.singleton_injective hline
    exact ⟨_, _, hstmt⟩

/-- The assembler rejects an operand outside its type (R60). -/
theorem wellFormed_of_parseLine {text : List Char} {i : Instr} (h : parseLine text = some [.command i]) :
    i.wellFormed = true := by
  obtain ⟨mnemonic, ops, hstmt⟩ := exists_parseStatement_of_parseLine h
  exact checksCommand_parseStatement mnemonic ops i hstmt

end Sys2Proof.Asm

namespace Sys2Proof.Machine

/-! ## The redraws -/

theorem Gen.attempt_lt (g : Gen) (j : Nat) : g.attempt j < 2 ^ 53 := join53_lt _ _

/-- `F64` is strictly monotone from `F64(0) = 0` on (R120). -/
theorem f64_ne_zero {m : Nat} (h0 : m ≠ 0) (hm : m < 2 ^ 53) : f64 m ≠ 0 := by
  obtain ⟨hzero, -, hmono⟩ := f64IsExact
  have hlt : (f64 0).toNat < (f64 m).toNat := hmono 0 m (Nat.pos_of_ne_zero h0) hm
  intro h
  rw [h, hzero] at hlt
  exact absurd hlt (Nat.lt_irrefl _)

/-- `NEXT_DOUBLE_NZ` once seeded, where the first non-zero attempt comes within the draws of R96 (R123). -/
theorem exec_nextDoubleNZ {k : Nat} {s : State} (hs : s.seeded = true) (hf : s.gen.FirstNonZero k)
    (hk : k < Config.maxDraws) :
    exec .nextDoubleNZ s = respond (f64 (s.gen.attempt k)) (s.withGen (s.gen.advance (2 * k + 2))) := by
  rw [exec, execNextDoubleNZ, ifSeeded_of_seeded hs, nonZeroLoop_of_first hf hk]

/-! ## Refused edges -/

/-- What the host does against its obligations outside reset is refused. -/
theorem step_of_hostRefusal {s : State} {e : Edge} {rest : List Edge} {r : Refusal} (he : s.edges = e :: rest)
    (hrst : e.rst = false) (href : hostRefusal e s = some r) : step s = .refused r := by
  have href' : hostRefusal e { s with edges := rest } = some r := href
  rw [step_of_edge he, onEdge, if_neg (by simp [hrst]), href']

/-- A command before the first reset event (R152). -/
theorem hostRefusal_of_never_reset {s : State} {e : Edge} (hv : e.cmdValid = true) (h0 : s.resets = 0) :
    hostRefusal e s = some .neverReset := if_pos (by simp [hv, h0])

/-- Another command word than the one still to be accepted (U7). -/
theorem hostRefusal_of_unstable {s : State} {e : Edge} {c : CmdWord} (hv : e.cmdValid = true) (h0 : s.resets ≠ 0)
    (hc : s.held = some c) (hne : e.cmd ≠ c) : hostRefusal e s = some .unstableCommand := by
  have hunstable : unstable e s = true := by simp [unstable, hc, hv, hne]
  rw [hostRefusal, if_neg (by simp [h0]), if_pos hunstable]

/-! ## What a step leaves of `resets` and `held` -/

/-- Accepting a word writes nothing of the host's side, a reserved opcode included (R29, R133). -/
theorem accept_sameHostSide {c : CmdWord} {s t : State} (h : accept c s = .next t) : s.SameHostSide t := by
  obtain ⟨i, -, hans⟩ | ⟨-, rfl⟩ := accept_cases h
  · exact hans.effect.sameHostSide
  · exact ⟨rfl, rfl, rfl, rfl, rfl⟩

/-- Delivering a beat writes neither field. -/
theorem deliver_keeps (s : State) : (deliver s).resets = s.resets ∧ (deliver s).held = s.held := by
  cases hr : s.rsp with
  | none => rw [deliver, hr]; exact ⟨rfl, rfl⟩
  | some r => rw [deliver_of_rsp hr]; exact ⟨rfl, rfl⟩

/-- The count of reset events never goes down. -/
theorem resets_le_of_step {s t : State} (h : step s = .next t) : s.resets ≤ t.resets := by
  obtain ⟨-, rfl⟩ | ⟨e, rest, -, hstep⟩ := step_cases h
  · exact Nat.le_refl _
  obtain ⟨-, rfl⟩ | ⟨-, hacc⟩ | ⟨-, -, -, -, rfl⟩ | ⟨-, -, -, -, rfl⟩ | ⟨-, -, -, -, rfl⟩ := hstep
  · exact Nat.le_succ _
  · obtain ⟨-, -, -, -, hresets⟩ := accept_sameHostSide hacc
    exact hresets.ge
  · exact Nat.le_refl _
  · obtain ⟨hresets, -⟩ := deliver_keeps (sampleInputs e e.presented { s with edges := rest })
    exact hresets.ge
  · exact Nat.le_refl _

/-- The word remembered after an edge: the one presented, where the edge could not accept it; none, where the block was
ready (R30, log entry 6). -/
theorem held_of_step {s t : State} {e : Edge} {rest : List Edge} (he : s.edges = e :: rest) (h : step s = .next t) :
    t.held = if e.rst = true ∨ s.rsp ≠ none then e.presented else none := by
  obtain ⟨hnil, -⟩ | ⟨e', rest', he', hstep⟩ := step_cases h
  · exact absurd (he.symm.trans hnil) (List.cons_ne_nil _ _)
  obtain ⟨rfl, rfl⟩ := List.cons.inj (he.symm.trans he')
  obtain ⟨hrst, rfl⟩ | ⟨⟨-, hrst, -, hrsp, -⟩, hacc⟩ | ⟨hrst, -, hrsp, -, rfl⟩ | ⟨-, -, hrsp, -, rfl⟩ |
    ⟨-, -, hrsp, -, rfl⟩ := hstep
  · rw [if_pos (.inl hrst)]; rfl
  · obtain ⟨-, hheld, -⟩ := accept_sameHostSide hacc
    rw [if_neg (by simp [hrst, hrsp]), hheld]; rfl
  · rw [if_neg (by simp [hrst, hrsp])]; rfl
  · obtain ⟨-, hheld⟩ := deliver_keeps (sampleInputs e e.presented { s with edges := rest })
    rw [if_pos (.inr hrsp), hheld]; rfl
  · rw [if_pos (.inr hrsp)]; rfl

/-! ## The obligations -/

/-- Settles O21: a word below the limit comes among any 129, which is within the fuel of the loop. -/
theorem boundedDrawEnds : Obligations.BoundedDrawEnds := by
  intro n g h1 h2
  obtain ⟨k, hk, hf⟩ := exists_firstBelow_boundedLimit h1 (by omega) g
  have hfuel : k < Config.maxDraws := hk.trans_lt (by decide)
  exact ⟨k, hk, hf, boundedLoop_of_first hf hfuel⟩

/-- Settles O36: one of the first four attempts is not zero, and only the fraction 0 has the pattern 0. -/
theorem nextDoubleNZEndsNonZero : Obligations.NextDoubleNZEndsNonZero := by
  refine ⟨decode_commandWord .nextDoubleNZ, refusedUnseeded_of_draws rfl, fun s hs hg => ?_⟩
  obtain ⟨k, hk, hf⟩ := Gen.exists_firstNonZero hg
  have hfuel : k < Config.maxDraws := hk.trans_lt (by decide)
  exact ⟨k, hk, hf, exec_nextDoubleNZ hs hf hfuel, f64_ne_zero hf.2 (Gen.attempt_lt _ _)⟩

/-- Settles O7: the assembler checks every command it writes, and a well-formed command is read back (O1). -/
theorem assembledCommandsDecodeBack : Obligations.AssembledCommandsDecodeBack := fun _ i h =>
  have hwf : i.wellFormed = true := Asm.wellFormed_of_parseLine h
  ⟨hwf, decodeOfEncodeIsTheInstruction i hwf⟩

/-- Settles O45: the check of R152 comes first outside reset, and the count only grows, at a reset edge. -/
theorem commandBeforeTheFirstResetIsRefused : Obligations.CommandBeforeTheFirstResetIsRefused := by
  refine ⟨fun s e rest h0 he hrst hv => ?_, fun s e rest he hrst => ?_, Nat.one_ne_zero, fun s t h h0 => ?_⟩
  · exact step_of_hostRefusal he hrst (hostRefusal_of_never_reset hv h0)
  · exact ⟨_, step_of_reset he hrst, Nat.succ_ne_zero _⟩
  · exact Nat.ne_zero_of_lt ((Nat.pos_of_ne_zero h0).trans_le (resets_le_of_step h))

/-- Settles O51: the check of U7, and what an edge leaves in `held` by whether it could accept a word. -/
theorem unstableCommandIsRefused : Obligations.UnstableCommandIsRefused := by
  refine ⟨fun s e rest c he hrst hv h0 hc hne => ?_, fun s t h => ⟨fun hnil => ?_, fun e rest he => ?_⟩⟩
  · exact step_of_hostRefusal he hrst (hostRefusal_of_unstable hv h0 hc hne)
  · obtain rfl : s = t := Host.Outcome.next.inj ((step_of_no_edge hnil).symm.trans h)
    rfl
  · rw [held_of_step he h]
    exact ⟨fun hrst => if_pos (.inl hrst), fun _ hbusy => if_pos (.inr hbusy),
      fun hrst hrsp => if_neg (by simp [hrst, hrsp])⟩

/-- Settles O6: each word is cut into its opcode and its two operand fields (R50), which are read by the opcode's row. -/
theorem specWordsDecodeAsTheSpecSays : Obligations.SpecWordsDecodeAsTheSpecSays :=
  ⟨decode_commandWord (.seed 0) 0x00000000#32 0x00000001#32,
    decode_commandWord .seedDefault 0xFFFFFFFF#32 0xFFFFFFFF#32,
    decode_commandWord (.nextU 0) 0x0000000A#32 0xFFFFFFFF#32,
    decode_commandWord (.nextLU 0 0) 0xFFFFFFFB#32 0x00000005#32,
    decode_commandWord .nextUint 0xDEADBEEF#32 0xCAFEF00D#32,
    decode_commandWord (.nextBytes 0) 0x00000007#32 0x12345678#32,
    rfl⟩

end Sys2Proof.Machine
end
